-- ==== Sys2Proof/Word.lean ====
section
/-!
DEFINITION. The values the core computes with: mathematical integers (00_scope R7), and the range that W bits of
two's complement hold. The spec never masks or shifts a value (R7: "There are no bit fields in this hardware"), so a value
is an `Int`, and the width is the predicate `FitsW` (log entry 2).
-/

namespace Sys2Proof

/-- `2^(W-1)`: the first integer above the range of `W` bits of two's complement. -/
def halfRange (W : Nat) : Nat := 2 ^ (W - 1)

/-- `fitsW(v)` of 00_scope R7: `-2^(W-1) <= v <= 2^(W-1) - 1`. -/
abbrev FitsW (W : Nat) (v : Int) : Prop := -(halfRange W : Int) ≤ v ∧ v ≤ (halfRange W : Int) - 1

end Sys2Proof
end

