-- ==== Sys2Proof/Config.lean ====
section
/-!
DEFINITION. What an implementation fixes: the two parameters of 00_scope R5, and the one value the model names where the
spec leaves a reset value unspecified.
-/

namespace Sys2Proof

/-- The two implementation parameters of the core (00_scope R5, decisions D1 and D3). -/
structure Config where
  /-- `W`: bits of a cell, PC, latch and operand. -/
  W : Nat
  /-- `MEM_CAP`: the most cells a program may load. -/
  memCap : Nat
  deriving DecidableEq, Repr

/-- The constraints of 00_scope R5: `W >= 18` and `1 <= MEM_CAP <= 2^(W-1) - 4`. -/
abbrev Config.Valid (c : Config) : Prop := 18 ≤ c.W ∧ 1 ≤ c.memCap ∧ c.memCap + 4 ≤ halfRange c.W

/-- The parameters of the core that `State.reset` is the state of: the width of the spec's test vectors (00_scope R5), and
the largest capacity R5 allows at that width. DESIGN CHOICE (log entry 1; unsafe for a claim about `State.reset` alone). -/
def Config.standard : Config := { W := 64, memCap := 9223372036854775804 }

/-- What IN and OUT hold after a load, which 70_reset R240 leaves unspecified. DESIGN CHOICE (log entries 6 and 7; unsafe:
a claim could rest on it, though no rule reads either latch before it is written). -/
def Config.latchAtReset : Int := 0

end Sys2Proof
end

