-- ==== Sys2Proof/Syntax.lean ====
section
/-!
DEFINITION. The instruction set as syntax: the two addressing modes, the nine operations and one constructor of `Instr` per
row of spec/opcode_table.json, carrying the modes its word holds (30_encoding R71, R73). The parameter cells are no part of
an instruction: the decoder "reads no memory beyond the word itself" (R88) and the resolver reads them in the step.
-/

namespace Sys2Proof

/-- The addressing mode of one parameter (30_encoding R76): digit 0 is position, digit 1 immediate. -/
inductive Mode where
  | position
  | immediate
  deriving DecidableEq, Repr

/-- The nine operations of the opcode map (30_encoding R73). -/
inductive Op where
  | add | mul | store | load | jit | jif | lt | eq | halt
  deriving DecidableEq, Repr

/-- The length `L` of an instruction in cells, its own word included (30_encoding R74). -/
def Op.length : Op → Nat
  | .add | .mul | .lt | .eq => 4
  | .jit | .jif => 3
  | .store | .load => 2
  | .halt => 1

/-- A decoded instruction: the operation and the mode of each of its `L - 1` parameters, parameter 1 first. The values of
ignored digits are no part of it ("Any value 0..9 in an ignored digit decodes to the same instruction", 30_encoding R75). -/
inductive Instr where
  /-- ADD s1, s2, d3 (41_arith R121). -/
  | add (m1 m2 m3 : Mode)
  /-- MUL s1, s2, d3 (41_arith R122). -/
  | mul (m1 m2 m3 : Mode)
  /-- STORE d1 (42_io R130). -/
  | store (m1 : Mode)
  /-- LOAD s1 (42_io R131). -/
  | load (m1 : Mode)
  /-- JIT s1, s2 (43_branch R140). -/
  | jit (m1 m2 : Mode)
  /-- JIF s1, s2 (43_branch R141). -/
  | jif (m1 m2 : Mode)
  /-- LT s1, s2, d3 (44_compare R151). -/
  | lt (m1 m2 m3 : Mode)
  /-- EQ s1, s2, d3 (44_compare R152). -/
  | eq (m1 m2 m3 : Mode)
  /-- HALT (45_halt R160). -/
  | halt
  deriving DecidableEq, Repr

/-- The operation an instruction performs. -/
def Instr.op : Instr → Op
  | .add _ _ _ => .add
  | .mul _ _ _ => .mul
  | .store _ => .store
  | .load _ => .load
  | .jit _ _ => .jit
  | .jif _ _ => .jif
  | .lt _ _ _ => .lt
  | .eq _ _ _ => .eq
  | .halt => .halt

/-- The modes of an instruction's parameters, parameter 1 first. -/
def Instr.modes : Instr → List Mode
  | .add m1 m2 m3 | .mul m1 m2 m3 | .lt m1 m2 m3 | .eq m1 m2 m3 => [m1, m2, m3]
  | .jit m1 m2 | .jif m1 m2 => [m1, m2]
  | .store m1 | .load m1 => [m1]
  | .halt => []

/-- The length of an instruction in cells. It depends on the operation alone (30_encoding R74). -/
def Instr.length (i : Instr) : Nat := i.op.length

/-- An instruction as it stands in memory: its word, then the raw values of its parameters (30_encoding R70). -/
structure Placed where
  instr : Instr
  params : List Int
  deriving DecidableEq, Repr

/-- Why the decoder refuses a word (30_encoding R88). Both are faults of the core, taken as 60_exceptions R206 says. -/
inductive DecodeFault where
  /-- The word is outside `[0, 99999]` or its low two digits name no operation (R72, R73, R83). -/
  | invalidOpcode
  /-- The mode digit of parameter `param` is `digit`, which is 2..9 (R76). -/
  | invalidAddressingMode (param : Fin 4) (digit : Fin 16)
  deriving DecidableEq, Repr

end Sys2Proof
end

