-- ==== Sys2Proof/WellFormed.lean ====
section
/-!
DEFINITION. What is well formed: an instruction placed in memory, and a program a load admits. An `Instr` alone has no
ill-formed term, since its modes are typed; the raw values that follow its word are what can be wrong.
-/

namespace Sys2Proof

/-- A placed instruction is well formed on a core of width `W` when it has exactly `L - 1` parameter cells (30_encoding R70)
and each holds a W-bit value (R82). -/
abbrev Placed.WellFormed (W : Nat) (p : Placed) : Prop :=
  p.params.length + 1 = p.instr.length ∧ ∀ v ∈ p.params, FitsW W v

/-- A list of integers is a program the core `c` can hold: not empty, every literal within W bits, at most MEM_CAP integers
(70_reset R243). -/
abbrev Config.Admits (c : Config) (vs : List Int) : Prop :=
  vs ≠ [] ∧ (∀ v ∈ vs, FitsW c.W v) ∧ vs.length ≤ c.memCap

end Sys2Proof
end

