-- ==== Sys2Proof/Decode.lean ====
section
/-!
DEFINITION. The instruction decoder of 30_encoding (R71 to R76, R88), total on every integer and rejecting by name, and after
it the encoder (R87), written from the same opcode map (R73).
-/

namespace Sys2Proof

/-- `digit(w, k)` of 00_scope R8: decimal digit `k` of `w`, digit 0 the least significant. -/
def digit (w k : Nat) : Nat := w / 10 ^ k % 10

/-- The opcode map (30_encoding R73): the operation a two-digit code selects, or none. -/
def opOfCode : Nat → Option Op
  | 1 => some .add
  | 2 => some .mul
  | 3 => some .store
  | 4 => some .load
  | 5 => some .jit
  | 6 => some .jif
  | 7 => some .lt
  | 8 => some .eq
  | 99 => some .halt
  | _ => none

/-- The two-digit code of an operation (30_encoding R73). -/
def Op.code : Op → Nat
  | .add => 1
  | .mul => 2
  | .store => 3
  | .load => 4
  | .jit => 5
  | .jif => 6
  | .lt => 7
  | .eq => 8
  | .halt => 99

/-- The index of an operation's destination parameter, if it has one (`IsDest` of 30_encoding R77). -/
def Op.destParam : Op → Option Nat
  | .add | .mul | .lt | .eq => some 3
  | .store => some 1
  | .load | .jit | .jif | .halt => none

/-- The mode of parameter `i` of the word `n`, read from digit `i + 1` (30_encoding R75, R76). -/
def decodeMode (n : Nat) (i : Fin 4) : Except DecodeFault Mode :=
  match digit n (i.val + 1) with
  | 0 => .ok .position
  | 1 => .ok .immediate
  | d => .error (.invalidAddressingMode i (Fin.ofNat 16 d))

/-- Modes of a one-parameter instruction. -/
def decodeModes1 (n : Nat) (f : Mode → Instr) : Except DecodeFault Instr :=
  match decodeMode n 1 with
  | .error e => .error e
  | .ok m1 => .ok (f m1)

/-- Modes of a two-parameter instruction, parameter 1 checked first (30_encoding R76, R88). -/
def decodeModes2 (n : Nat) (f : Mode → Mode → Instr) : Except DecodeFault Instr :=
  match decodeMode n 1 with
  | .error e => .error e
  | .ok m1 =>
    match decodeMode n 2 with
    | .error e => .error e
    | .ok m2 => .ok (f m1 m2)

/-- Modes of a three-parameter instruction, parameter 1 checked first (30_encoding R76, R88). -/
def decodeModes3 (n : Nat) (f : Mode → Mode → Mode → Instr) : Except DecodeFault Instr :=
  match decodeMode n 1 with
  | .error e => .error e
  | .ok m1 =>
    match decodeMode n 2 with
    | .error e => .error e
    | .ok m2 =>
      match decodeMode n 3 with
      | .error e => .error e
      | .ok m3 => .ok (f m1 m2 m3)

/-- Exactly the `L - 1` mode digits of the operation are extracted (30_encoding R75); the others are ignored. -/
def decodeOp (n : Nat) : Op → Except DecodeFault Instr
  | .add => decodeModes3 n .add
  | .mul => decodeModes3 n .mul
  | .store => decodeModes1 n .store
  | .load => decodeModes1 n .load
  | .jit => decodeModes2 n .jit
  | .jif => decodeModes2 n .jif
  | .lt => decodeModes3 n .lt
  | .eq => decodeModes3 n .eq
  | .halt => .ok .halt

/-- `Decode(w, pc)` of 30_encoding R88. The pc and the word the fault carries are recorded by fault entry
(`Machine.enterFault`). -/
def decode (w : Int) : Except DecodeFault Instr :=
  if w < 0 ∨ 99999 < w then .error .invalidOpcode
  else
    match opOfCode (w.toNat % 100) with
    | none => .error .invalidOpcode
    | some op => decodeOp w.toNat op

/-- The digit of a mode (30_encoding R76). -/
def Mode.digit : Mode → Nat
  | .position => 0
  | .immediate => 1

/-- The weighted sum of mode digits: each parameter's digit stands one place left of the one before it (30_encoding R71). -/
def encodeModes (weight : Nat) : List Mode → Nat
  | [] => 0
  | m :: ms => weight * m.digit + encodeModes (10 * weight) ms

/-- `Encode(code, m1, m2, m3)` of 30_encoding R87: the canonical word, with the ignored digits 0. -/
def encodeNat (i : Instr) : Nat := i.op.code + encodeModes 100 i.modes

/-- The canonical instruction word as the value of a cell. -/
def encode (i : Instr) : Int := (encodeNat i : Int)

/-- The cells of a placed instruction: "its canonical word (rule R87) followed by the raw parameter values"
(30_encoding R85). -/
def Placed.cells (p : Placed) : List Int := encode p.instr :: p.params

/-- Cell `k` of an instruction laid out in bits, `W` bits a cell, each cell two's complement, cell 0 the least significant;
bits at and above `nbits` are 0. PRESUMED (log entry 12; safe): the spec gives cells no bit layout that anything observes. -/
def cellOfBits (W nbits w k : Nat) : Int :=
  let bits := w % 2 ^ nbits / 2 ^ (W * k) % 2 ^ W
  if bits < halfRange W then (bits : Int) else (bits : Int) - (2 ^ W : Nat)

/-- The instruction the decoder reads from an instruction whose bits are `w` (the host's question; log entry 12): the first
word is one cell, and the decoder reads no other. -/
def decodeTableWord (nbits w : Nat) : Option Instr :=
  (decode (cellOfBits Config.standard.W nbits w 0)).toOption

end Sys2Proof
end

