-- ==== Sys2Proof/Machine/State.lean ====
section
/-!
DEFINITION. The state of the core as plain data (10_state R33), the reasons a step of the model can stop, and the state after
reset.
-/

namespace Sys2Proof.Machine

/-- The core's state machine (10_state R24). The spec's encoding is `Fsm.code`; value 3 is never produced. -/
inductive Fsm where
  | running
  | halted
  | faulted
  deriving DecidableEq, Repr

/-- The 2-bit encoding of FSM (10_state R24, decision D12). -/
def Fsm.code : Fsm → Nat
  | .running => 0
  | .halted => 1
  | .faulted => 2

/-- `FAULT.code` (10_state R29). -/
inductive FaultCode where
  | none
  | invalidOpcode
  | invalidAddressingMode
  | outOfBounds
  | overflow
  | inputUndefined
  deriving DecidableEq, Repr

/-- The 3-bit encoding of `FAULT.code` (10_state R29, decision D12); 6 and 7 are never produced. -/
def FaultCode.code : FaultCode → Nat
  | .none => 0
  | .invalidOpcode => 1
  | .invalidAddressingMode => 2
  | .outOfBounds => 3
  | .overflow => 4
  | .inputUndefined => 5

/-- The access that failed a bounds check: `FAULT.kind` (10_state R30). -/
inductive AccessKind where
  | fetch
  | param
  | operand
  | write
  deriving DecidableEq, Repr

/-- The 2-bit encoding of `FAULT.kind` (10_state R30, decision D12). -/
def AccessKind.code : AccessKind → Nat
  | .fetch => 0
  | .param => 1
  | .operand => 2
  | .write => 3

/-- The five faults a step can raise (60_exceptions R200), with what the raising rule says of each. The pc and the word are
added by fault entry (R206). -/
inductive Raise where
  /-- R201, raised by decode. -/
  | invalidOpcode
  /-- R202, raised by decode. -/
  | invalidAddressingMode (param : Fin 4) (digit : Fin 16)
  /-- R203, raised by fetch, resolve and write. -/
  | outOfBounds (kind : AccessKind) (addr : Int)
  /-- R204, raised by ADD and MUL. -/
  | overflow
  /-- R205, raised by STORE. -/
  | inputUndefined
  deriving DecidableEq, Repr

/-- The fault record FAULT (10_state R29). A field not used by the code is 0; kind 0 is FETCH. -/
structure FaultRecord where
  code : FaultCode
  pc : Int
  word : Int
  addr : Int
  kind : AccessKind
  param : Fin 4
  digit : Fin 16
  deriving DecidableEq, Repr

/-- The record after a load: "every field 0 (code NONE)" (10_state R29). -/
def FaultRecord.clear : FaultRecord :=
  { code := .none, pc := 0, word := 0, addr := 0, kind := .fetch, param := 0, digit := 0 }

/-- The cells of memory as pairs of an address and the value there, in canonical form (`Memory.wf`): addresses strictly
rising, no pair that holds what an unlisted address holds. One pair is one CELL, the unit of memory (20_memory R53); the core
has no bytes (log entry 3). -/
abbrev Memory := List (Nat × Int)

/-- The complete architectural state (10_state R33), and the configuration of the core it is a state of. -/
structure State where
  /-- `W` and `MEM_CAP` (00_scope R5): configuration, which nothing changes (log entry 1). -/
  cfg : Config
  /-- `MEM` (10_state R21). -/
  mem : Memory
  /-- `LEN` (10_state R22); 0 before the first load (log entry 4). -/
  len : Nat
  /-- `PC` (10_state R23). -/
  pc : Int
  /-- `FSM` (10_state R24). -/
  fsm : Fsm
  /-- `IN` (10_state R27). -/
  inLatch : Int
  /-- `IN_VALID` (10_state R27). -/
  inValid : Bool
  /-- `OUT` (10_state R28). -/
  outLatch : Int
  /-- `OUT_VALID` (10_state R28). -/
  outValid : Bool
  /-- `FAULT` (10_state R29). -/
  fault : FaultRecord
  deriving DecidableEq, Repr

/-- Why a step of the MODEL stops. The core's own five faults are not here: fault entry is a next state (60_exceptions
R206). -/
inductive Fault where
  /-- Raised by `step` alone, in a state no program has been loaded into (LEN = 0): "Before the first successful load the
  core's state is unspecified and the host must not step it" (70_reset R241; 93 U13, "stuck"). Safe. -/
  | notLoaded
  deriving DecidableEq, Repr

/-- Why an instruction has no meaning. No meaning of the model answers with a refusal. -/
inductive Refusal where
  /-- Raised by an arm of `exec` whose instruction has no meaning yet; there is none. Safe. -/
  | notModelled (mnemonic : String)
  deriving DecidableEq, Repr

/-- The core right after reset, no program text placed in it: every field as 70_reset R241 gives it, memory with nothing
listed. Reset IS the load of a program (R240); with none loaded LEN is 0 (DESIGN CHOICE, log entry 4, safe), and IN and OUT,
which R241 leaves unspecified, are `Config.latchAtReset` (DESIGN CHOICE, log entries 6 and 7, unsafe). -/
def State.reset : State :=
  { cfg := Config.standard
    mem := []
    len := 0
    pc := 0
    fsm := .running
    inLatch := Config.latchAtReset
    inValid := false
    outLatch := Config.latchAtReset
    outValid := false
    fault := FaultRecord.clear }

end Sys2Proof.Machine
end

