-- ==== Sys2Proof/Machine/Ops.lean ====
section
/-!
DEFINITION. The named operations over memory and registers, and taking a fault as one shared operation. There is no return
from a fault (60_exceptions R208): only a load, `State.loadProgram`, leaves HALTED or FAULTED.
-/

namespace Sys2Proof.Machine

/-- What an unlisted address of `[0, LEN)` holds. A load gives every cell a value (70_reset R240), so this is how a cell that
holds 0 is written down, not a value the model adds (log entry 3). -/
def Memory.unlisted : Int := 0

/-- The value at an address. -/
def Memory.get : Memory → Nat → Int
  | [], _ => Memory.unlisted
  | (b, x) :: rest, a => if b = a then x else Memory.get rest a

/-- The memory with `v` at address `a`, in canonical form if it was. -/
def Memory.set : Memory → Nat → Int → Memory
  | [], a, v => if v = Memory.unlisted then [] else [(a, v)]
  | (b, x) :: rest, a, v =>
    if b < a then (b, x) :: Memory.set rest a v
    else if b = a then (if v = Memory.unlisted then rest else (a, v) :: rest)
    else (if v = Memory.unlisted then (b, x) :: rest else (a, v) :: (b, x) :: rest)

/-- The canonical form: addresses strictly rising, no entry equal to what an unlisted address holds. -/
abbrev Memory.wf (m : Memory) : Prop :=
  m.Pairwise (fun c d => c.1 < d.1) ∧ ∀ c ∈ m, c.2 ≠ Memory.unlisted

/-- The cells `a, a + 1, ...` holding the listed values. -/
def Memory.ofListFrom : Nat → List Int → Memory
  | _, [] => []
  | a, v :: vs =>
    if v = Memory.unlisted then Memory.ofListFrom (a + 1) vs else (a, v) :: Memory.ofListFrom (a + 1) vs

/-- `MEM[a]` (00_scope R9): the cell at `a`, or none where no cell exists, below 0 and from LEN on (20_memory R57). -/
def State.cell (s : State) (a : Int) : Option Int :=
  if 0 ≤ a ∧ a < (s.len : Int) then some (s.mem.get a.toNat) else none

/-- `MemRead(a, 1, kind)` (20_memory R50). -/
def memRead (s : State) (a : Int) (kind : AccessKind) : Except Raise Int :=
  match s.cell a with
  | some v => .ok v
  | none => .error (.outOfBounds kind a)

/-- The state with the cell at `a` holding `v`; `a` is an address of `[0, LEN)`. -/
def State.withCell (s : State) (a v : Int) : State := { s with mem := s.mem.set a.toNat v }

/-- `MemWrite(a, 1, v)` (20_memory R51): the state with the write staged. -/
def memWrite (s : State) (a v : Int) : Except Raise State :=
  if 0 ≤ a ∧ a < (s.len : Int) then .ok (s.withCell a v) else .error (.outOfBounds .write a)

/-- `pc <- target` (40_cycle R106). -/
def State.withPc (s : State) (target : Int) : State := { s with pc := target }

/-- `IN_VALID <- 0` (42_io R130): IN keeps its value. -/
def State.consumeInput (s : State) : State := { s with inValid := false }

/-- `OUT <- v`, `OUT_VALID <- 1` (42_io R131). -/
def State.withOutput (s : State) (v : Int) : State := { s with outLatch := v, outValid := true }

/-- `FSM <- HALTED` (45_halt R160). -/
def State.halt (s : State) : State := { s with fsm := .halted }

/-- The source's flag `halted` (10_state R25). -/
def State.halted (s : State) : Bool := s.fsm == .halted

/-- The word a fault record carries: the instruction word at PC, or 0 where PC names no cell, which is the fault of kind
FETCH (10_state R29). Read again from memory, since nothing is written between fetch and fault. DEDUCED (log entry 9; safe). -/
def State.wordAtPc (s : State) : Int := (s.cell s.pc).getD 0

/-- The fields of the fault record for a fault (60_exceptions R200 to R205); a field the code does not use is 0
(10_state R29). -/
def Raise.record (pc word : Int) : Raise → FaultRecord
  | .invalidOpcode => { FaultRecord.clear with code := .invalidOpcode, pc := pc, word := word }
  | .invalidAddressingMode p d =>
    { FaultRecord.clear with code := .invalidAddressingMode, pc := pc, word := word, param := p, digit := d }
  | .outOfBounds k a => { FaultRecord.clear with code := .outOfBounds, pc := pc, word := word, addr := a, kind := k }
  | .overflow => { FaultRecord.clear with code := .overflow, pc := pc, word := word }
  | .inputUndefined => { FaultRecord.clear with code := .inputUndefined, pc := pc, word := word }

/-- Fault entry (60_exceptions R206): FSM becomes FAULTED and FAULT is written; MEM, LEN, PC, IN, IN_VALID, OUT and OUT_VALID
keep the values they had before the faulting step. -/
def enterFault (s : State) (r : Raise) : State :=
  { s with fsm := .faulted, fault := r.record s.pc s.wordAtPc }

/-- The end of a step that began in `s` (40_cycle R105): everything staged takes effect at once, or, where the step raised,
nothing does and fault entry is taken. -/
def commit (s : State) : Except Raise State → Host.Outcome State Fault Refusal
  | .ok t => .next t
  | .error r => .next (enterFault s r)

/-- Reset, the load of a program (70_reset R240, R241): all earlier state is discarded. IN and OUT are unspecified there
(DESIGN CHOICE, log entries 6 and 7). -/
def State.loadProgram (s : State) (program : List Int) : State :=
  { State.reset with cfg := s.cfg, mem := Memory.ofListFrom 0 program, len := program.length }

end Sys2Proof.Machine
end

