-- ==== Sys2Proof/Machine/Operands.lean ====
section
/-!
DEFINITION. The addressing-mode resolver (30_encoding R79 to R82): the operand forms of the core. A parameter cell is used as
it stands, with no extension, scaling or offset (R82).
-/

namespace Sys2Proof.Machine

/-- `RAW[k]`: the parameter cell at `PC + k` (30_encoding R70, R79). -/
def rawParam (s : State) (k : Int) : Except Raise Int := memRead s (s.pc + k) .param

/-- `OPND[k]` of a source parameter (30_encoding R79): the raw value, or the cell it names. -/
def srcOperand (s : State) (k : Int) (m : Mode) : Except Raise Int :=
  match rawParam s k with
  | .error r => .error r
  | .ok raw =>
    match m with
    | .immediate => .ok raw
    | .position => memRead s raw .operand

/-- `OPND[k]` of a destination parameter (30_encoding R78, R80): the raw value whatever its mode. -/
def destOperand (s : State) (k : Int) (_m : Mode) : Except Raise Int := rawParam s k

end Sys2Proof.Machine
end

