-- ==== Sys2Proof/Machine/Flags.lean ====
section
/-!
DEFINITION. The ALU and the comparator. The core has no condition codes and no flags (10_state R26): a comparison's truth
value is the result itself, and the one condition arithmetic can meet is the Overflow fault.
-/

namespace Sys2Proof.Machine

/-- A result that must fit W bits: the result, or Overflow (41_arith R120). -/
def fitResult (c : Config) (r : Int) : Except Raise Int := if FitsW c.W r then .ok r else .error .overflow

/-- The exact sum (41_arith R120, R121). -/
def aluAdd (c : Config) (a b : Int) : Except Raise Int := fitResult c (a + b)

/-- The exact product (41_arith R120, R122). -/
def aluMul (c : Config) (a b : Int) : Except Raise Int := fitResult c (a * b)

/-- 1 for true and 0 for false (44_compare R150). -/
def truth (b : Bool) : Int := if b then 1 else 0

/-- Signed less-than (44_compare R150, R151). -/
def cmpLt (a b : Int) : Int := truth (decide (a < b))

/-- Equality (44_compare R150, R152). -/
def cmpEq (a b : Int) : Int := truth (decide (a = b))

end Sys2Proof.Machine
end

