-- ==== Sys2Proof/Machine/Formats.lean ====
section
/-!
DEFINITION. The step shared by the instructions of one format (30_encoding R70): the order in which operands are resolved, the
result is computed, the write is staged and PC advances (60_exceptions R210, 40_cycle R105, R106).
-/

namespace Sys2Proof.Machine

/-- The step of an instruction with two sources and a destination (format I4): operands 1 and 2 and the destination address
in that order (30_encoding R81), then the result, then the write (60_exceptions R210), then PC + 4 (40_cycle R106). -/
def stageI4 (s : State) (m1 m2 m3 : Mode) (result : Int → Int → Except Raise Int) : Except Raise State :=
  match srcOperand s 1 m1 with
  | .error r => .error r
  | .ok a =>
    match srcOperand s 2 m2 with
    | .error r => .error r
    | .ok b =>
      match destOperand s 3 m3 with
      | .error r => .error r
      | .ok d =>
        match result a b with
        | .error r => .error r
        | .ok v =>
          match memWrite s d v with
          | .error r => .error r
          | .ok t => .ok (t.withPc (s.pc + 4))

/-- The step of a conditional jump (format I3): condition and target are both resolved, whether or not the jump is taken
(43_branch R140), then the next PC. -/
def stageI3 (s : State) (m1 m2 : Mode) (taken : Int → Bool) : Except Raise State :=
  match srcOperand s 1 m1 with
  | .error r => .error r
  | .ok cond =>
    match srcOperand s 2 m2 with
    | .error r => .error r
    | .ok target => .ok (s.withPc (if taken cond then target else s.pc + 3))

end Sys2Proof.Machine
end

