-- ==== Sys2Proof/Machine/Arith.lean ====
section
/-!
DEFINITION. Arithmetic: ADD and MUL (41_arith).
-/

namespace Sys2Proof.Machine

/-- ADD s1, s2, d3 (41_arith R121). -/
def execAdd (m1 m2 m3 : Mode) (s : State) : Host.Outcome State Fault Refusal :=
  commit s (stageI4 s m1 m2 m3 (aluAdd s.cfg))

/-- MUL s1, s2, d3 (41_arith R122). -/
def execMul (m1 m2 m3 : Mode) (s : State) : Host.Outcome State Fault Refusal :=
  commit s (stageI4 s m1 m2 m3 (aluMul s.cfg))

end Sys2Proof.Machine
end

