-- ==== Sys2Proof/Machine/Branch.lean ====
section
/-!
DEFINITION. Conditional jumps: JIT and JIF (43_branch). The target is absolute and is not checked here (R142).
-/

namespace Sys2Proof.Machine

/-- JIT s1, s2 (43_branch R140): jumps on any value but 0. -/
def execJit (m1 m2 : Mode) (s : State) : Host.Outcome State Fault Refusal :=
  commit s (stageI3 s m1 m2 (fun cond => decide (cond ≠ 0)))

/-- JIF s1, s2 (43_branch R141): jumps on the value 0 only. -/
def execJif (m1 m2 : Mode) (s : State) : Host.Outcome State Fault Refusal :=
  commit s (stageI3 s m1 m2 (fun cond => decide (cond = 0)))

end Sys2Proof.Machine
end

