-- ==== Sys2Proof/Machine/Compare.lean ====
section
/-!
DEFINITION. Comparisons: LT and EQ (44_compare). The result is a whole cell and cannot overflow (R150).
-/

namespace Sys2Proof.Machine

/-- LT s1, s2, d3 (44_compare R151). -/
def execLt (m1 m2 m3 : Mode) (s : State) : Host.Outcome State Fault Refusal :=
  commit s (stageI4 s m1 m2 m3 (fun a b => .ok (cmpLt a b)))

/-- EQ s1, s2, d3 (44_compare R152). -/
def execEq (m1 m2 m3 : Mode) (s : State) : Host.Outcome State Fault Refusal :=
  commit s (stageI4 s m1 m2 m3 (fun a b => .ok (cmpEq a b)))

end Sys2Proof.Machine
end

