-- ==== Sys2Proof/Machine/Halt.lean ====
section
/-!
DEFINITION. HALT (45_halt).
-/

namespace Sys2Proof.Machine

/-- HALT (45_halt R160): reads no parameter, raises nothing, and PC keeps the address of the HALT word (decision D10). -/
def execHalt (s : State) : Host.Outcome State Fault Refusal := commit s (.ok s.halt)

end Sys2Proof.Machine
end

