-- ==== Sys2Proof/Machine/Io.lean ====
section
/-!
DEFINITION. Input and output: STORE and LOAD (42_io). The latches have no handshake (R132): neither instruction waits.
-/

namespace Sys2Proof.Machine

/-- The step of STORE: the destination address, then the input, then the write, and only then is the input consumed
(42_io R130; 60_exceptions R210). -/
def stageStore (s : State) (m1 : Mode) : Except Raise State :=
  match destOperand s 1 m1 with
  | .error r => .error r
  | .ok d =>
    if s.inValid then
      match memWrite s d s.inLatch with
      | .error r => .error r
      | .ok t => .ok (t.consumeInput.withPc (s.pc + 2))
    else .error .inputUndefined

/-- STORE d1 (42_io R130). -/
def execStore (m1 : Mode) (s : State) : Host.Outcome State Fault Refusal := commit s (stageStore s m1)

/-- The step of LOAD (42_io R131): OUT takes the resolved operand. -/
def stageLoad (s : State) (m1 : Mode) : Except Raise State :=
  match srcOperand s 1 m1 with
  | .error r => .error r
  | .ok v => .ok ((s.withOutput v).withPc (s.pc + 2))

/-- LOAD s1 (42_io R131). -/
def execLoad (m1 : Mode) (s : State) : Host.Outcome State Fault Refusal := commit s (stageLoad s m1)

end Sys2Proof.Machine
end

