-- ==== Sys2Proof/Machine/Dispatch.lean ====
section
/-!
DEFINITION. The dispatch of 40_cycle R104: resolve, execute and commit of a decoded instruction.
-/

namespace Sys2Proof.Machine

def exec (i : Instr) (s : State) : Host.Outcome State Fault Refusal :=
  match i with
  | .add m1 m2 m3 => Sys2Proof.Machine.execAdd m1 m2 m3 s
  | .mul m1 m2 m3 => Sys2Proof.Machine.execMul m1 m2 m3 s
  | .store m1 => Sys2Proof.Machine.execStore m1 s
  | .load m1 => Sys2Proof.Machine.execLoad m1 s
  | .jit m1 m2 => Sys2Proof.Machine.execJit m1 m2 s
  | .jif m1 m2 => Sys2Proof.Machine.execJif m1 m2 s
  | .lt m1 m2 m3 => Sys2Proof.Machine.execLt m1 m2 m3 s
  | .eq m1 m2 m3 => Sys2Proof.Machine.execEq m1 m2 m3 s
  | .halt => Sys2Proof.Machine.execHalt s

end Sys2Proof.Machine
end

