-- ==== Sys2Proof/Machine/Cycle.lean ====
section
/-!
DEFINITION. The step (40_cycle R100): fetch, decode, then the instruction's own resolve, execute and commit. Step.lean only
calls what stands here.
-/

namespace Sys2Proof.Machine

/-- The fault a decoder's refusal raises (60_exceptions R201, R202). -/
def raiseOfDecode : DecodeFault → Raise
  | .invalidOpcode => .invalidOpcode
  | .invalidAddressingMode p d => .invalidAddressingMode p d

/-- Fetch and decode (40_cycle R101, R102): the instruction at PC, or the fault. -/
def fetchDecode (s : State) : Except Raise Instr :=
  match memRead s s.pc .fetch with
  | .error r => .error r
  | .ok w =>
    match decode w with
    | .error e => .error (raiseOfDecode e)
    | .ok i => .ok i

/-- One step of a RUNNING core (40_cycle R100). -/
def runningStep (s : State) : Host.Outcome State Fault Refusal :=
  match fetchDecode s with
  | .error r => commit s (.error r)
  | .ok i => exec i s

/-- The host's STEP() (10_state R35): one step if RUNNING, no change in HALTED and FAULTED (40_cycle R108), and stuck before
the first load (70_reset R241; 93 U13). -/
def stepOnce (s : State) : Host.Outcome State Fault Refusal :=
  if s.len = 0 then .fault .notLoaded
  else
    match s.fsm with
    | .running => runningStep s
    | .halted => .next s
    | .faulted => .next s

/-- The state with an instruction of at most four cells standing where the next step fetches (log entry 5): its cells at PC
(at 0 where PC is negative), LEN reaching past them, FSM RUNNING. Stands for the host's load. -/
def State.placeBits (s : State) (nbits w : Nat) : State :=
  let base := s.pc.toNat
  let m0 := s.mem.set base (cellOfBits s.cfg.W nbits w 0)
  let m1 := m0.set (base + 1) (cellOfBits s.cfg.W nbits w 1)
  let m2 := m1.set (base + 2) (cellOfBits s.cfg.W nbits w 2)
  let m3 := m2.set (base + 3) (cellOfBits s.cfg.W nbits w 3)
  { s with mem := m3, len := max s.len (base + 4), pc := (base : Int), fsm := .running }

end Sys2Proof.Machine
end

