-- ==== Sys2Proof/Machine/Step.lean ====
section
/-!
DEFINITION. The step function of the machine, and where the host places an instruction for its next step.
-/

namespace Sys2Proof.Machine

/-- One step (40_cycle R100, R108). -/
def step (s : State) : Host.Outcome State Fault Refusal := stepOnce s

/-- `s` with the instruction whose bits are `w` standing where `step` fetches its next instruction (log entry 5). -/
def State.withFetchWord (s : State) (nbits w : Nat) : State := s.placeBits nbits w

end Sys2Proof.Machine
end

