-- ==== Sys2Proof/Machine/Asm.lean ====
section
/-!
DEFINITION. The spec's assembly notation (30_encoding R85, R86) as terms: operand forms, labels, data and the three
pseudo-instructions, assembled to the integers they stand for. It is "a notation only, and the hardware sees integers"
(decision D17); the spec fixes no character-level grammar for it, so lines are terms, not text (log entry 15).
-/

namespace Sys2Proof.Machine

/-- `n` of an operand: "a signed decimal integer or a label" (30_encoding R85). -/
inductive AsmNumber where
  | literal (n : Int)
  | label (name : String)
  deriving DecidableEq, Repr

/-- `[n]` (mode position) or `#n` (mode immediate), of a source or a destination (30_encoding R85). -/
structure AsmOperand where
  mode : Mode
  number : AsmNumber
  deriving DecidableEq, Repr

/-- One line. A comment assembles to nothing and has no constructor. -/
inductive AsmLine where
  | add (s1 s2 d : AsmOperand)
  | mul (s1 s2 d : AsmOperand)
  | store (d : AsmOperand)
  | load (s : AsmOperand)
  | jit (s1 s2 : AsmOperand)
  | jif (s1 s2 : AsmOperand)
  | lt (s1 s2 d : AsmOperand)
  | eq (s1 s2 d : AsmOperand)
  | halt
  /-- `.word n, n, ...`. -/
  | word (ns : List AsmNumber)
  /-- `label:` names the address of the next cell. -/
  | define (name : String)
  /-- Pseudo-instruction JMP s. -/
  | jmp (s : AsmOperand)
  /-- Pseudo-instruction MOV s, d. -/
  | mov (s d : AsmOperand)
  /-- Pseudo-instruction NOP. -/
  | nop
  deriving DecidableEq, Repr

/-- The operand `#n`. -/
def AsmOperand.imm (n : Int) : AsmOperand := { mode := .immediate, number := .literal n }

/-- The instruction and operands of a line that stands for one, pseudo-instructions expanded as 30_encoding R86 says. -/
def AsmLine.instr : AsmLine → Option (Instr × List AsmNumber)
  | .add s1 s2 d => some (.add s1.mode s2.mode d.mode, [s1.number, s2.number, d.number])
  | .mul s1 s2 d => some (.mul s1.mode s2.mode d.mode, [s1.number, s2.number, d.number])
  | .store d => some (.store d.mode, [d.number])
  | .load s => some (.load s.mode, [s.number])
  | .jit s1 s2 => some (.jit s1.mode s2.mode, [s1.number, s2.number])
  | .jif s1 s2 => some (.jif s1.mode s2.mode, [s1.number, s2.number])
  | .lt s1 s2 d => some (.lt s1.mode s2.mode d.mode, [s1.number, s2.number, d.number])
  | .eq s1 s2 d => some (.eq s1.mode s2.mode d.mode, [s1.number, s2.number, d.number])
  | .halt => some (.halt, [])
  | .word _ => none
  | .define _ => none
  | .jmp s => some (.jit .immediate s.mode, [.literal 1, s.number])
  | .mov s d => some (.add s.mode .immediate d.mode, [s.number, .literal 0, d.number])
  | .nop => some (.jif .immediate .immediate, [.literal 1, .literal 0])

/-- The numbers of the cells a line assembles to. -/
def AsmLine.numbers (l : AsmLine) : List AsmNumber :=
  match l with
  | .word ns => ns
  | _ =>
    match l.instr with
    | some (i, ns) => .literal (encode i) :: ns
    | none => []

/-- The address a label names: that of the next cell after its definition, the first line at address `at_`. -/
def addressOf (name : String) : Nat → List AsmLine → Option Nat
  | _, [] => none
  | at_, .define n :: rest => if n = name then some at_ else addressOf name at_ rest
  | at_, l :: rest => addressOf name (at_ + l.numbers.length) rest

/-- The value of a number in a program. -/
def AsmNumber.value (program : List AsmLine) : AsmNumber → Option Int
  | .literal n => some n
  | .label name => (addressOf name 0 program).map (fun (a : Nat) => (a : Int))

/-- Every number's value, or none where a label is not defined. -/
def valuesOf (program : List AsmLine) : List AsmNumber → Option (List Int)
  | [] => some []
  | n :: ns =>
    match n.value program with
    | none => none
    | some v => (valuesOf program ns).map (v :: ·)

/-- The integers a program assembles to: each instruction's canonical word and its raw parameter values (30_encoding R85). -/
def assemble (program : List AsmLine) : Option (List Int) := valuesOf program (program.flatMap AsmLine.numbers)

end Sys2Proof.Machine
end

