-- ==== Sys2Proof/Machine/HostPort.lean ====
section
/-!
DEFINITION. The host's transactions (10_state R35, 70_reset R240 to R252), each performed between steps (R248): loading and
serialising program text, host reads and writes, the input and output latches, STEP, RUN and STATUS.
-/

namespace Sys2Proof.Machine

/-- Why a transaction is refused; a refusal changes no state. Where several reasons hold, which is named is the model's
DESIGN CHOICE, as is the refusal of a value that does not fit (log entry 14; safe). -/
inductive HostRefusal where
  /-- A transaction other than LOAD before the first load (70_reset R241; 93 U13). -/
  | notLoaded
  /-- The address of HOST_READ or HOST_WRITE names no cell (70_reset R247, R249). -/
  | outOfBounds
  /-- HOST_WRITE when FSM is not RUNNING (70_reset R249). -/
  | notRunning
  /-- A value or a literal that does not fit W bits (70_reset R243, R247). -/
  | doesNotFit
  /-- LOAD of a text with no integer (70_reset R243). -/
  | noInteger
  /-- LOAD of a text outside the grammar (70_reset R243, R244). -/
  | notInGrammar
  /-- LOAD of more than MEM_CAP integers (70_reset R243). -/
  | overCapacity
  deriving DecidableEq, Repr

/-! ### Program text (70_reset R244) -/

/-- `ws`: space, TAB, CR or LF. -/
def isWs (c : Char) : Bool := c = ' ' || c = '\t' || c = '\r' || c = '\n'

/-- The value of a run of digits read in base 10. -/
def decimalValue (ds : List Char) : Nat := ds.foldl (fun acc c => 10 * acc + (c.toNat - 48)) 0

/-- `digit+`. -/
def parseDigits (ds : List Char) : Option Nat :=
  if ds ≠ [] ∧ ds.all Char.isDigit then some (decimalValue ds) else none

/-- `integer ::= "-"? digit+`. -/
def parseInteger : List Char → Option Int
  | [] => none
  | c :: ds =>
    if c = '-' then (parseDigits ds).map (fun (n : Nat) => -(n : Int))
    else (parseDigits (c :: ds)).map (fun (n : Nat) => (n : Int))

/-- The pieces of a text between its commas. -/
def splitCommas : List Char → List (List Char)
  | [] => [[]]
  | c :: cs =>
    if c = ',' then [] :: splitCommas cs
    else
      match splitCommas cs with
      | [] => [[c]]
      | f :: fs => (c :: f) :: fs

/-- Every piece read as an integer. -/
def parseAll : List (List Char) → Option (List Int)
  | [] => some []
  | f :: fs =>
    match parseInteger f with
    | none => none
    | some v => (parseAll fs).map (v :: ·)

/-- The text without the white space before and after it. -/
def stripWs (t : List Char) : List Char := ((t.dropWhile isWs).reverse.dropWhile isWs).reverse

/-- The text without one trailing comma. -/
def dropTrailingComma (t : List Char) : List Char := if t.getLast? = some ',' then t.dropLast else t

/-- `text ::= ws* integer ( "," integer )* ","? ws*`: the integers of a text in the grammar. -/
def parseProgram (t : List Char) : Option (List Int) := parseAll (splitCommas (dropTrailingComma (stripWs t)))

/-- LOAD(text): reset to the parsed program (70_reset R240), or a refusal that changes nothing (R243). -/
def State.loadText (s : State) (text : List Char) : Except HostRefusal State :=
  if stripWs text = [] then .error .noInteger
  else
    match parseProgram text with
    | none => .error .notInGrammar
    | some vs =>
      if ¬ ∀ v ∈ vs, FitsW s.cfg.W v then .error .doesNotFit
      else if s.cfg.memCap < vs.length then .error .overCapacity
      else .ok (s.loadProgram vs)

/-! ### Serialisation (70_reset R245) -/

/-- The decimal digits of a number, most significant first; `fuel` bounds their count. -/
def digitsOf : Nat → Nat → List Char
  | 0, _ => []
  | fuel + 1, n => if n < 10 then [Char.ofNat (48 + n)] else digitsOf fuel (n / 10) ++ [Char.ofNat (48 + n % 10)]

/-- A natural number in canonical decimal: no leading zeros, `0` for zero. -/
def showNat (n : Nat) : List Char := digitsOf (n + 1) n

/-- An integer in canonical decimal: `-` only for negative values. -/
def showInteger (v : Int) : List Char := if v < 0 then '-' :: showNat v.natAbs else showNat v.natAbs

/-- Pieces joined by commas. -/
def joinCommas : List (List Char) → List Char
  | [] => []
  | [f] => f
  | f :: fs => f ++ ',' :: joinCommas fs

/-- The cells of memory in order. -/
def State.cells (s : State) : List Int := (List.range s.len).map s.mem.get

/-- The text VIEW returns: every cell in canonical decimal, joined by commas. -/
def State.viewText (s : State) : List Char := joinCommas (s.cells.map showInteger)

/-! ### RUN (40_cycle R109, R110) -/

/-- RUN() watched for at most `n` steps, a budget of the host's own (40_cycle R109; log entry 13). -/
def runFor : Nat → State → Host.Outcome State Fault Refusal
  | 0, s => .next s
  | n + 1, s =>
    if s.fsm = .running then
      match step s with
      | .next t => runFor n t
      | .fault f => .fault f
      | .refused r => .refused r
    else .next s

/-- A run from `s` ends in `t`: FSM has left RUNNING there (40_cycle R110). -/
def RunEnds (s t : State) : Prop := ∃ n, runFor n s = .next t ∧ t.fsm ≠ .running

/-- A run from `s` never ends, a hang (40_cycle R110, 70_reset R258): it is RUNNING after every number of steps. -/
def Hangs (s : State) : Prop := ∀ n, ∃ t, runFor n s = .next t ∧ t.fsm = .running

/-! ### The transactions (10_state R35, 70_reset R247) -/

/-- A transaction of the host. -/
inductive Transaction where
  | load (text : List Char)
  | hostWrite (a v : Int)
  | hostRead (a : Int)
  | view
  | setInput (v : Int)
  | getOutput
  | step
  /-- RUN(), watched for at most `budget` steps. -/
  | run (budget : Nat)
  | status
  deriving DecidableEq, Repr

/-- What the core gives back. -/
inductive Reply where
  | nothing
  | value (v : Int)
  | text (t : List Char)
  /-- `(OUT_VALID, OUT)`: no output where OUT_VALID is 0, OUT meaning nothing then (70_reset R247; 93 U12). -/
  | output (o : Option Int)
  | status (fsm : Fsm) (pc : Int) (fault : FaultRecord)
  /-- Whether RUN() returned within the budget. -/
  | ran (returned : Bool)
  deriving DecidableEq, Repr

/-- HOST_WRITE(a, v) (70_reset R249). -/
def State.hostWrite (s : State) (a v : Int) : Except HostRefusal State :=
  if s.fsm ≠ .running then .error .notRunning
  else if s.cell a = none then .error .outOfBounds
  else if ¬ FitsW s.cfg.W v then .error .doesNotFit
  else .ok (s.withCell a v)

/-- HOST_READ(a) (70_reset R247). -/
def State.hostRead (s : State) (a : Int) : Except HostRefusal Int :=
  match s.cell a with
  | some v => .ok v
  | none => .error .outOfBounds

/-- SET_INPUT(v) (70_reset R250). -/
def State.setInput (s : State) (v : Int) : Except HostRefusal State :=
  if FitsW s.cfg.W v then .ok { s with inLatch := v, inValid := true } else .error .doesNotFit

/-- GET_OUTPUT() (70_reset R251): the value most recently written by a LOAD, if there is one. -/
def State.getOutput (s : State) : Option Int := if s.outValid then some s.outLatch else none

/-- The reply and the state after STEP() or RUN() from a loaded state. -/
def afterSteps (reply : State → Reply) : Host.Outcome State Fault Refusal → Except HostRefusal (Reply × State)
  | .next t => .ok (reply t, t)
  | .fault _ => .error .notLoaded
  | .refused _ => .error .notLoaded

/-- One transaction: its reply and the state after it, or its refusal. Before the first load (LEN = 0) only LOAD has a
meaning (70_reset R241; 93 U13). -/
def transact (s : State) (x : Transaction) : Except HostRefusal (Reply × State) :=
  match x with
  | .load text => (s.loadText text).map (fun t => (.nothing, t))
  | .hostWrite a v => if s.len = 0 then .error .notLoaded else (s.hostWrite a v).map (fun t => (.nothing, t))
  | .hostRead a => if s.len = 0 then .error .notLoaded else (s.hostRead a).map (fun v => (.value v, s))
  | .view => if s.len = 0 then .error .notLoaded else .ok (.text s.viewText, s)
  | .setInput v => if s.len = 0 then .error .notLoaded else (s.setInput v).map (fun t => (.nothing, t))
  | .getOutput => if s.len = 0 then .error .notLoaded else .ok (.output s.getOutput, s)
  | .step => afterSteps (fun _ => .nothing) (step s)
  | .run budget => if s.len = 0 then .error .notLoaded else afterSteps (fun t => .ran (decide (t.fsm ≠ .running))) (runFor budget s)
  | .status => if s.len = 0 then .error .notLoaded else .ok (.status s.fsm s.pc s.fault, s)

end Sys2Proof.Machine
end

