-- ==== Sys2Proof/Safety.lean ====
section
/-!
DEFINITION. The terms claims are stated in: the invariants of the state, the operands and faults of a step read straight off
memory, what an instruction's rule says as a whole, and the grammar of program text.
-/

namespace Sys2Proof.Machine

/-! ### Invariants -/

/-- Every value stands within its width and memory is in its form (00_scope R5, R7; 10_state R21 to R23, R27 to R29). -/
structure State.WellFormed (s : State) : Prop where
  cfgValid : s.cfg.Valid
  memCanonical : s.mem.wf
  memInRange : ∀ c ∈ s.mem, c.1 < s.len
  memFits : ∀ c ∈ s.mem, FitsW s.cfg.W c.2
  lenCapped : s.len ≤ s.cfg.memCap
  pcFits : FitsW s.cfg.W s.pc
  inFits : FitsW s.cfg.W s.inLatch
  outFits : FitsW s.cfg.W s.outLatch
  faultPcFits : FitsW s.cfg.W s.fault.pc
  faultWordFits : FitsW s.cfg.W s.fault.word
  faultAddrFits : FitsW s.cfg.W s.fault.addr

/-- The fault record says what moved FSM to FAULTED, and nothing else (10_state R29, R30; 60_exceptions R200 to R206). -/
structure State.FaultConsistent (s : State) : Prop where
  recordedIffFaulted : s.fault.code ≠ .none ↔ s.fsm = .faulted
  clearUnlessFaulted : s.fault.code = .none → s.fault = FaultRecord.clear
  pcOfFault : s.fault.code ≠ .none → s.fault.pc = s.pc
  boundsFieldsUnused : s.fault.code ≠ .outOfBounds → s.fault.addr = 0 ∧ s.fault.kind = .fetch
  modeFieldsUnused : s.fault.code ≠ .invalidAddressingMode → s.fault.param = 0 ∧ s.fault.digit = 0
  modeFieldsInRange : s.fault.code = .invalidAddressingMode →
    1 ≤ s.fault.param.val ∧ 2 ≤ s.fault.digit.val ∧ s.fault.digit.val ≤ 9
  fetchFaultHasNoWord : s.fault.code = .outOfBounds → s.fault.kind = .fetch →
    s.fault.word = 0 ∧ s.fault.addr = s.pc ∧ s.cell s.pc = none

/-! ### A step's operands and resolve faults, read off memory -/

/-- `v` is the operand of the source parameter `k` under mode `m` (30_encoding R79). -/
def IsOperand (s : State) (k : Int) (m : Mode) (v : Int) : Prop :=
  ∃ raw, s.cell (s.pc + k) = some raw ∧
    match m with
    | .immediate => v = raw
    | .position => s.cell raw = some v

/-- Resolving the source parameter `k` under mode `m` raises `r` (30_encoding R79; 60_exceptions R203). -/
def OperandFault (s : State) (k : Int) (m : Mode) (r : Raise) : Prop :=
  (s.cell (s.pc + k) = none ∧ r = .outOfBounds .param (s.pc + k)) ∨
  (m = .position ∧ ∃ raw, s.cell (s.pc + k) = some raw ∧ s.cell raw = none ∧ r = .outOfBounds .operand raw)

/-- `a` is an address of `[0, LEN)` (20_memory R57). -/
def InMemory (s : State) (a : Int) : Prop := 0 ≤ a ∧ a < (s.len : Int)

/-- The word at PC decodes to `i` (40_cycle R101, R102). -/
def Fetches (s : State) (i : Instr) : Prop := ∃ w, s.cell s.pc = some w ∧ decode w = .ok i

/-- `v` is the source operand that `#n` or `[n]` of a program's line stands for: `n`, or the cell at address `n`
(30_encoding R85). -/
def AsmOperand.Gives (o : AsmOperand) (program : List AsmLine) (s : State) (v : Int) : Prop :=
  ∃ n, o.number.value program = some n ∧
    match o.mode with
    | .immediate => v = n
    | .position => s.cell n = some v

/-! ### What committed steps do -/

/-- `t` is `s` after an instruction of length `L` that wrote `v` to the cell `d`: every other cell, LEN, FSM, IN, OUT,
OUT_VALID and FAULT are unchanged (40_cycle R105, R106). IN_VALID is left to the instruction's own statement. -/
structure Wrote (s t : State) (d v L : Int) : Prop where
  written : t.cell d = some v
  others : ∀ a, a ≠ d → t.cell a = s.cell a
  pc : t.pc = s.pc + L
  cfg : t.cfg = s.cfg
  len : t.len = s.len
  fsm : t.fsm = s.fsm
  inLatch : t.inLatch = s.inLatch
  outLatch : t.outLatch = s.outLatch
  outValid : t.outValid = s.outValid
  fault : t.fault = s.fault

/-- Every extracted mode digit of the operation `op` that is 2..9 raises InvalidAddressingMode at decode, the destination's
included (30_encoding R76). -/
def ModesChecked (op : Op) : Prop :=
  ∀ w : Nat, w ≤ 99999 → opOfCode (w % 100) = some op → ∀ k, 1 ≤ k → k < op.length → 2 ≤ digit w (k + 1) →
    ∃ p d, decode (w : Int) = .error (.invalidAddressingMode p d)

/-- Every word of the operation whose extracted digits are 0 or 1 decodes to it, whatever its ignored digits
(30_encoding R75). -/
def IgnoresUnusedDigits (i : Instr) : Prop :=
  ∀ x : Nat, x < 10 ^ (4 - i.length) → decode (encode i + 10 ^ (i.length + 1) * (x : Int)) = .ok i

/-- The rule of an instruction with sources 1 and 2 and destination 3 (41_arith R121, R122; 44_compare R151, R152), where
`result` gives the value or the fault of its execute phase: the result is written and PC + 4 follows; the faults come in the
order of 60_exceptions R210. -/
structure I4Rule (mk : Mode → Mode → Mode → Instr) (result : Config → Int → Int → Except Raise Int) : Prop where
  completes : ∀ (s : State) (m1 m2 m3 : Mode) (a b d v : Int), s.mem.wf →
    IsOperand s 1 m1 a → IsOperand s 2 m2 b → s.cell (s.pc + 3) = some d → result s.cfg a b = .ok v → InMemory s d →
    ∃ t, exec (mk m1 m2 m3) s = .next t ∧ Wrote s t d v 4 ∧ t.inValid = s.inValid
  operand1Faults : ∀ (s : State) (m1 m2 m3 : Mode) (r : Raise), OperandFault s 1 m1 r →
    exec (mk m1 m2 m3) s = .next (enterFault s r)
  operand2Faults : ∀ (s : State) (m1 m2 m3 : Mode) (a : Int) (r : Raise), IsOperand s 1 m1 a → OperandFault s 2 m2 r →
    exec (mk m1 m2 m3) s = .next (enterFault s r)
  destParamFaults : ∀ (s : State) (m1 m2 m3 : Mode) (a b : Int), IsOperand s 1 m1 a → IsOperand s 2 m2 b →
    s.cell (s.pc + 3) = none → exec (mk m1 m2 m3) s = .next (enterFault s (.outOfBounds .param (s.pc + 3)))
  resultFaults : ∀ (s : State) (m1 m2 m3 : Mode) (a b d : Int) (r : Raise), IsOperand s 1 m1 a → IsOperand s 2 m2 b →
    s.cell (s.pc + 3) = some d → result s.cfg a b = .error r → exec (mk m1 m2 m3) s = .next (enterFault s r)
  writeFaults : ∀ (s : State) (m1 m2 m3 : Mode) (a b d v : Int), IsOperand s 1 m1 a → IsOperand s 2 m2 b →
    s.cell (s.pc + 3) = some d → result s.cfg a b = .ok v → ¬ InMemory s d →
    exec (mk m1 m2 m3) s = .next (enterFault s (.outOfBounds .write d))

/-- The rule of a conditional jump (43_branch R140, R141): both operands are resolved on both paths, then PC takes the target
or PC + 3, and nothing else changes. -/
structure JumpRule (mk : Mode → Mode → Instr) (taken : Int → Prop) : Prop where
  jumps : ∀ (s : State) (m1 m2 : Mode) (c target : Int), IsOperand s 1 m1 c → IsOperand s 2 m2 target → taken c →
    exec (mk m1 m2) s = .next { s with pc := target }
  fallsThrough : ∀ (s : State) (m1 m2 : Mode) (c target : Int), IsOperand s 1 m1 c → IsOperand s 2 m2 target → ¬ taken c →
    exec (mk m1 m2) s = .next { s with pc := s.pc + 3 }
  conditionFaults : ∀ (s : State) (m1 m2 : Mode) (r : Raise), OperandFault s 1 m1 r →
    exec (mk m1 m2) s = .next (enterFault s r)
  targetFaults : ∀ (s : State) (m1 m2 : Mode) (c : Int) (r : Raise), IsOperand s 1 m1 c → OperandFault s 2 m2 r →
    exec (mk m1 m2) s = .next (enterFault s r)

/-- What no step changes but the I/O instructions, and no instruction at all changes of the rest: the frame shared by every
instruction. Either the step committed and FSM and FAULT are kept, or it faulted and memory, PC, the latches and their valid
flags are kept (40_cycle R105; 60_exceptions R206). -/
structure CommonFrame (s t : State) : Prop where
  cfg : t.cfg = s.cfg
  len : t.len = s.len
  inLatch : t.inLatch = s.inLatch
  committedOrFaulted : (t.fsm = s.fsm ∧ t.fault = s.fault) ∨
    (t.fsm = .faulted ∧ t.mem = s.mem ∧ t.pc = s.pc ∧ t.inValid = s.inValid ∧ t.outLatch = s.outLatch ∧
      t.outValid = s.outValid)

/-- The outcomes of two steps agree in all that a step computes from (MEM, LEN, PC, IN, IN_VALID) (40_cycle R107): the new
memory, LEN, PC, FSM, IN and IN_VALID, the fault record of a fault, and the output of a LOAD; what a step does not write stays
as each state had it. -/
structure SameEffect (s₁ t₁ s₂ t₂ : State) : Prop where
  mem : t₁.mem = t₂.mem
  len : t₁.len = t₂.len
  pc : t₁.pc = t₂.pc
  fsm : t₁.fsm = t₂.fsm
  inLatch : t₁.inLatch = t₂.inLatch
  inValid : t₁.inValid = t₂.inValid
  fault : (t₁.fsm = .faulted ∧ t₁.fault = t₂.fault) ∨ (t₁.fault = s₁.fault ∧ t₂.fault = s₂.fault)
  output : (t₁.outValid = true ∧ t₂.outValid = true ∧ t₁.outLatch = t₂.outLatch) ∨
    (t₁.outLatch = s₁.outLatch ∧ t₁.outValid = s₁.outValid ∧ t₂.outLatch = s₂.outLatch ∧ t₂.outValid = s₂.outValid)

/-! ### Ends of runs (40_cycle R110; 60_exceptions R219) -/

/-- The run from `s` ended successfully in `t`: there, and only there, MEM and OUT are the program's result. -/
def RunSucceeds (s t : State) : Prop := RunEnds s t ∧ t.fsm = .halted

/-- The run from `s` failed with the fault recorded in `t`; no claim about the program's result may rest on `t`'s MEM, OUT or
IN (60_exceptions R219). -/
def RunFails (s t : State) : Prop := RunEnds s t ∧ t.fsm = .faulted

/-! ### The grammar of program text (70_reset R244), as a relation -/

/-- `digit+`, read in base 10. -/
def IsDigits (ds : List Char) (n : Nat) : Prop := ds ≠ [] ∧ (∀ c ∈ ds, c.isDigit = true) ∧ n = decimalValue ds

/-- `integer ::= "-"? digit+`. -/
def IsInteger (t : List Char) (v : Int) : Prop :=
  (∃ n : Nat, IsDigits t n ∧ v = (n : Int)) ∨ (∃ ds n, t = '-' :: ds ∧ IsDigits ds n ∧ v = -(n : Int))

/-- `integer ( "," integer )*`. -/
inductive IsList : List Char → List Int → Prop where
  | one (t : List Char) (v : Int) : IsInteger t v → IsList t [v]
  | more (t : List Char) (v : Int) (rest : List Char) (vs : List Int) : IsInteger t v → IsList rest vs →
    IsList (t ++ ',' :: rest) (v :: vs)

/-- `text ::= ws* integer ( "," integer )* ","? ws*`. -/
def InGrammar (text : List Char) (vs : List Int) : Prop :=
  ∃ before body comma after, text = before ++ body ++ comma ++ after ∧ (∀ c ∈ before, isWs c = true) ∧ IsList body vs ∧
    (comma = [] ∨ comma = [',']) ∧ (∀ c ∈ after, isWs c = true)

end Sys2Proof.Machine
end

