-- ==== Sys2Proof/Certificates/Slice0/Obligations.lean ====
section
/-!
DEFINITION. The statements for the provers, each formalising what a numbered rule of spec/ says an instruction, the core or
the host's interface does. The operands and faults of a step are `IsOperand`, `OperandFault`, `Fetches` and `InMemory`, read
straight off memory (Sys2Proof/Safety.lean).
-/

open Sys2Proof Sys2Proof.Machine

/-! ### Encoding -/

/-- A few words of the spec's decoder vectors (95_test_vectors 2.1) and examples decode to what they stand for. -/
def Obligations.SpecWordsDecode : Prop :=
  decode 1 = .ok (.add .position .position .position) ∧
  decode 1002 = .ok (.mul .position .immediate .position) ∧
  decode 11101 = .ok (.add .immediate .immediate .immediate) ∧
  decode 103 = .ok (.store .immediate) ∧
  decode 2004 = .ok (.load .position) ∧
  decode 21105 = .ok (.jit .immediate .immediate) ∧
  decode 1006 = .ok (.jif .position .immediate) ∧
  decode 1107 = .ok (.lt .immediate .immediate .position) ∧
  decode 8 = .ok (.eq .position .position .position) ∧
  decode 92199 = .ok .halt

/-- Decode and encode agree on every integer: a word decodes to `i` exactly when it is `i`'s canonical word plus some value in
the `4 - L` digits that `i` ignores (30_encoding R75, R87). At value 0 this is `decode (encode i) = i`. -/
def Obligations.DecodeIsCanonicalWordPlusIgnoredDigits : Prop :=
  ∀ (w : Int) (i : Instr), decode w = .ok i ↔
    ∃ x : Nat, x < 10 ^ (4 - i.length) ∧ w = encode i + 10 ^ (i.length + 1) * (x : Int)

/-- The decoder raises InvalidOpcode exactly on words outside `[0, 99999]` and on codes outside {1..8, 99} (30_encoding R72,
R73, R83; the range check is the spec's own decision, D5 and D6). -/
def Obligations.InvalidOpcodeExactlyOnUnmappedWords : Prop :=
  ∀ w : Int, decode w = .error .invalidOpcode ↔
    (w < 0 ∨ 99999 < w ∨ ¬ ((1 ≤ w % 100 ∧ w % 100 ≤ 8) ∨ w % 100 = 99))

/-- The decoder raises InvalidAddressingMode exactly when an extracted mode digit is 2..9, and names the lowest such parameter
and its digit (30_encoding R75, R76; which one is named is the spec's own decision, D13). -/
def Obligations.InvalidModeNamesLowestParameter : Prop :=
  ∀ (w : Int) (p : Fin 4) (d : Fin 16), decode w = .error (.invalidAddressingMode p d) ↔
    0 ≤ w ∧ w ≤ 99999 ∧ ∃ op, opOfCode (w.toNat % 100) = some op ∧ 1 ≤ p.val ∧ p.val < op.length ∧
      digit w.toNat (p.val + 1) = d.val ∧ 2 ≤ d.val ∧ ∀ q, 1 ≤ q → q < p.val → digit w.toNat (q + 1) ≤ 1

/-- 30_encoding R78: a destination's mode digit is checked and not applied. Digits 0 and 1 give the same execution, with the
raw parameter value as the address; a digit 2..9 raises InvalidAddressingMode at decode. -/
def Obligations.DestinationModeIsCheckedNotApplied : Prop :=
  (∀ (m1 m2 : Mode) (s : State),
    exec (.add m1 m2 .position) s = exec (.add m1 m2 .immediate) s ∧
    exec (.mul m1 m2 .position) s = exec (.mul m1 m2 .immediate) s ∧
    exec (.lt m1 m2 .position) s = exec (.lt m1 m2 .immediate) s ∧
    exec (.eq m1 m2 .position) s = exec (.eq m1 m2 .immediate) s ∧
    exec (.store .position) s = exec (.store .immediate) s) ∧
  (∀ (s : State) (k raw : Int) (m : Mode), s.cell (s.pc + k) = some raw → destOperand s k m = .ok raw) ∧
  (∀ (w : Nat) (op : Op) (p : Nat), w ≤ 99999 → opOfCode (w % 100) = some op → op.destParam = some p → 2 ≤ digit w (p + 1) →
    ∃ q d, decode (w : Int) = .error (.invalidAddressingMode q d))

/-- A well-formed instruction standing in memory at PC is fetched as itself, and its raw parameter values are read back in
order (30_encoding R70, R85, R87). -/
def Obligations.PlacedInstructionIsReadBack : Prop :=
  ∀ (s : State) (p : Placed), p.WellFormed s.cfg.W →
    (∀ k : Nat, k < p.cells.length → s.cell (s.pc + k) = p.cells[k]?) →
    fetchDecode s = .ok p.instr ∧
      ∀ (k : Nat) (m : Mode), k < p.params.length →
        ∃ v, p.params[k]? = some v ∧ destOperand s (k + 1) m = .ok v ∧ srcOperand s (k + 1) .immediate = .ok v

/-! ### Memory and operands -/

/-- 20_memory R50: a read answers the cell, or OutOfBounds with the kind and the address when the address is negative or at or
above LEN. -/
def Obligations.MemoryReadChecksBounds : Prop :=
  ∀ (s : State) (a : Int) (kind : AccessKind),
    (a < 0 ∨ (s.len : Int) ≤ a → memRead s a kind = .error (.outOfBounds kind a)) ∧
    (0 ≤ a → a < (s.len : Int) → memRead s a kind = .ok (s.mem.get a.toNat))

/-- 20_memory R51: a write inside memory gives "a memory identical to the input except for the single written slot", and one
outside raises OutOfBounds of kind WRITE. -/
def Obligations.MemoryWriteChangesOneCell : Prop :=
  ∀ (s : State) (a v : Int),
    (¬ InMemory s a → memWrite s a v = .error (.outOfBounds .write a)) ∧
    (s.mem.wf → InMemory s a → ∃ t, memWrite s a v = .ok t ∧ t.cell a = some v ∧ (∀ b, b ≠ a → t.cell b = s.cell b) ∧
      t = { s with mem := t.mem })

/-- 30_encoding R79, R80: the resolver. An immediate source is the raw value; a position source is the cell the raw value
names, or OutOfBounds of kind OPERAND where there is none; a destination is the raw value, whatever it names; a parameter
cell outside memory is OutOfBounds of kind PARAM. -/
def Obligations.ResolverSelectsByMode : Prop :=
  ∀ (s : State) (k raw : Int) (m : Mode),
    (s.cell (s.pc + k) = some raw →
      srcOperand s k .immediate = .ok raw ∧
      (∀ v, s.cell raw = some v → srcOperand s k .position = .ok v) ∧
      (s.cell raw = none → srcOperand s k .position = .error (.outOfBounds .operand raw)) ∧
      destOperand s k m = .ok raw) ∧
    (s.cell (s.pc + k) = none →
      srcOperand s k m = .error (.outOfBounds .param (s.pc + k)) ∧
      destOperand s k m = .error (.outOfBounds .param (s.pc + k)))

/-- 44_compare R150: the comparator is signed, answers 1 or 0, and its result always fits. -/
def Obligations.ComparatorIsSignedAndNeverOverflows : Prop :=
  ∀ (a b : Int) (W : Nat), 18 ≤ W →
    (a < b → cmpLt a b = 1) ∧ (b ≤ a → cmpLt a b = 0) ∧ (a = b → cmpEq a b = 1) ∧ (a ≠ b → cmpEq a b = 0) ∧
    FitsW W (cmpLt a b) ∧ FitsW W (cmpEq a b)

/-! ### The instructions -/

/-- ADD and MUL as a whole (41_arith R120 to R122): the exact sum or product is written to the destination and PC + 4 follows,
whenever the operands are readable, the result fits and the destination is in memory. Otherwise the fault, in the order
operand 1, operand 2, parameter 3, Overflow, WRITE. Overflow is the spec's own decision D2, the order D13. -/
def Obligations.AddAndMulFollowTheirRules : Prop :=
  I4Rule .add (fun c a b => if FitsW c.W (a + b) then .ok (a + b) else .error .overflow) ∧
  I4Rule .mul (fun c a b => if FitsW c.W (a * b) then .ok (a * b) else .error .overflow) ∧
  ModesChecked .add ∧ ModesChecked .mul

/-- LT and EQ as a whole (44_compare R150 to R152): 1 or 0 is written to the destination as a whole cell and PC + 4 follows,
whenever the operands are readable and the destination is in memory. Otherwise the fault, in the order operand 1, operand 2,
parameter 3, WRITE (30_encoding R81; 60_exceptions R210; the order is decision D13, 93 U15, log entry 11). -/
def Obligations.LtAndEqFollowTheirRules : Prop :=
  I4Rule .lt (fun _ a b => .ok (if a < b then 1 else 0)) ∧
  I4Rule .eq (fun _ a b => .ok (if a = b then 1 else 0)) ∧
  ModesChecked .lt ∧ ModesChecked .eq

/-- STORE with an input set and a destination in memory writes IN there, consumes the input and goes to PC + 2 (42_io R130;
that the input is consumed is the spec's resolution C3, decision D7). -/
def Obligations.StoreWritesAndConsumesInput : Prop :=
  ∀ (s : State) (m1 : Mode) (d : Int), s.mem.wf → s.inValid = true → s.cell (s.pc + 1) = some d → InMemory s d →
    ∃ t, exec (.store m1) s = .next t ∧ Wrote s t d s.inLatch 2 ∧ t.inValid = false

/-- Where STORE traps (42_io R130, R205; decisions D8, D13): no parameter cell; no input, before the write is checked; a
destination outside memory, which leaves the input unconsumed. -/
def Obligations.StoreTraps : Prop :=
  ∀ (s : State) (m1 : Mode),
    (s.cell (s.pc + 1) = none → exec (.store m1) s = .next (enterFault s (.outOfBounds .param (s.pc + 1)))) ∧
    (∀ d, s.cell (s.pc + 1) = some d → s.inValid = false → exec (.store m1) s = .next (enterFault s .inputUndefined)) ∧
    (∀ d, s.cell (s.pc + 1) = some d → s.inValid = true → ¬ InMemory s d →
      exec (.store m1) s = .next (enterFault s (.outOfBounds .write d)) ∧
      (enterFault s (.outOfBounds .write d)).inValid = true)

/-- LOAD as a whole (42_io R131). OUT takes the resolved operand (resolution C2), OUT_VALID becomes 1 and PC + 2 follows,
whatever OUT and OUT_VALID were; memory is not written. Its faults are those of its one operand, entered as 60_exceptions R206
says (decisions D12, D14), and of its mode digit; digits 3 and 4 are ignored (30_encoding R75, resolution C7). Log entry 11. -/
def Obligations.LoadOutputsItsOperand : Prop :=
  (∀ (s : State) (m1 : Mode) (v : Int), IsOperand s 1 m1 v →
    exec (.load m1) s = .next { s with outLatch := v, outValid := true, pc := s.pc + 2 }) ∧
  (∀ (s : State) (m1 : Mode) (r : Raise), OperandFault s 1 m1 r → exec (.load m1) s = .next (enterFault s r)) ∧
  ModesChecked .load ∧ ∀ m1, IgnoresUnusedDigits (.load m1)

/-- JIT as a whole (43_branch R140). It jumps on every condition but 0, negative included; operand 1's fault comes before
operand 2's (30_encoding R81; 60_exceptions R210; the order is decision D13, 93 U15, log entry 11). -/
def Obligations.JitJumpsUnlessZero : Prop :=
  JumpRule .jit (fun c => c ≠ 0) ∧ ModesChecked .jit ∧ ∀ m1 m2, IgnoresUnusedDigits (.jit m1 m2)

/-- JIF as a whole (43_branch R141). It jumps on the condition 0 only; operand 1's fault comes before operand 2's
(30_encoding R81; 60_exceptions R210; the order is decision D13, 93 U15, log entry 11). -/
def Obligations.JifJumpsOnZero : Prop :=
  JumpRule .jif (fun c => c = 0) ∧ ModesChecked .jif ∧ ∀ m1 m2, IgnoresUnusedDigits (.jif m1 m2)

/-- HALT moves FSM to HALTED in every state and changes nothing else (45_halt R160); that PC keeps the HALT's address is the
spec's own decision D10, on which no claim about a program should rest (93 U14). -/
def Obligations.HaltOnlyMovesFsm : Prop :=
  (∀ s : State, exec .halt s = .next { s with fsm := .halted }) ∧ IgnoresUnusedDigits .halt

/-! ### Frames -/

/-- What ADD, MUL, LT and EQ leave unchanged, whenever they answer a next state: every cell but the one at the destination
address, LEN, IN, IN_VALID, OUT, OUT_VALID; FSM and FAULT unless the step faulted (20_memory R51, R55; 40_cycle R105). -/
def Obligations.ResultInstructionsFrame : Prop :=
  ∀ (s t : State) (m1 m2 m3 : Mode) (i : Instr),
    i = .add m1 m2 m3 ∨ i = .mul m1 m2 m3 ∨ i = .lt m1 m2 m3 ∨ i = .eq m1 m2 m3 → exec i s = .next t →
    CommonFrame s t ∧ t.inValid = s.inValid ∧ t.outLatch = s.outLatch ∧ t.outValid = s.outValid ∧
      (∀ d, destOperand s 3 m3 = .ok d → ∀ a, a ≠ d → t.cell a = s.cell a) ∧
      (∀ r, destOperand s 3 m3 = .error r → ∀ a, t.cell a = s.cell a)

/-- What STORE leaves unchanged: every cell but the one at the destination address, LEN, IN, OUT, OUT_VALID; IN_VALID unless
the step committed; FSM and FAULT unless it faulted (42_io R130; 40_cycle R105). -/
def Obligations.StoreFrame : Prop :=
  ∀ (s t : State) (m1 : Mode), exec (.store m1) s = .next t →
    CommonFrame s t ∧ t.outLatch = s.outLatch ∧ t.outValid = s.outValid ∧
      (∀ d, destOperand s 1 m1 = .ok d → ∀ a, a ≠ d → t.cell a = s.cell a) ∧
      (∀ r, destOperand s 1 m1 = .error r → ∀ a, t.cell a = s.cell a)

/-- What LOAD, JIT, JIF and HALT leave unchanged: every cell, LEN, IN, IN_VALID; OUT and OUT_VALID but for LOAD; FSM and FAULT
unless the step faulted or was HALT (20_memory R52, 43_branch R140, 45_halt R160). -/
def Obligations.InstructionsThatWriteNoCellFrame : Prop :=
  ∀ (s t : State) (m1 m2 : Mode) (i : Instr),
    i = .load m1 ∨ i = .jit m1 m2 ∨ i = .jif m1 m2 ∨ i = .halt → exec i s = .next t →
    (∀ a, t.cell a = s.cell a) ∧ t.cfg = s.cfg ∧ t.len = s.len ∧ t.inLatch = s.inLatch ∧ t.inValid = s.inValid ∧
      (i ≠ .load m1 → t.outLatch = s.outLatch ∧ t.outValid = s.outValid) ∧
      (i ≠ .halt → CommonFrame s t) ∧
      (i = .halt → t.fault = s.fault ∧ t.pc = s.pc ∧ t.fsm = .halted)

/-! ### Faults -/

/-- Fault entry (60_exceptions R200 to R206): FSM becomes FAULTED, the record gets the code, PC, the word at PC and the fields
of the fault, every other field 0, and all other state is kept. Record and keeping are the spec's own decisions D12, D14. An
OutOfBounds of kind FETCH has no word at PC and is FetchOutsideMemoryTraps's. -/
def Obligations.FaultEntryRecordsAndKeeps : Prop :=
  ∀ (s : State) (w : Int), s.cell s.pc = some w →
    (enterFault s .invalidOpcode).fault =
      { code := .invalidOpcode, pc := s.pc, word := w, addr := 0, kind := .fetch, param := 0, digit := 0 } ∧
    (∀ p d, (enterFault s (.invalidAddressingMode p d)).fault =
      { code := .invalidAddressingMode, pc := s.pc, word := w, addr := 0, kind := .fetch, param := p, digit := d }) ∧
    (∀ k a, k ≠ .fetch → (enterFault s (.outOfBounds k a)).fault =
      { code := .outOfBounds, pc := s.pc, word := w, addr := a, kind := k, param := 0, digit := 0 }) ∧
    (enterFault s .overflow).fault =
      { code := .overflow, pc := s.pc, word := w, addr := 0, kind := .fetch, param := 0, digit := 0 } ∧
    (enterFault s .inputUndefined).fault =
      { code := .inputUndefined, pc := s.pc, word := w, addr := 0, kind := .fetch, param := 0, digit := 0 } ∧
    ∀ r, enterFault s r = { s with fsm := .faulted, fault := (enterFault s r).fault }

/-- A PC outside memory faults at the fetch with kind FETCH, the PC as address and word 0, and changes nothing else (40_cycle
R101; that it faults is decision D11, what the record holds D12). -/
def Obligations.FetchOutsideMemoryTraps : Prop :=
  ∀ s : State, s.len ≠ 0 → s.fsm = .running → s.pc < 0 ∨ (s.len : Int) ≤ s.pc →
    step s = .next { s with
      fsm := .faulted
      fault := { code := .outOfBounds, pc := s.pc, word := 0, addr := s.pc, kind := .fetch, param := 0, digit := 0 } }

/-- A word at PC that the decoder refuses faults at once, before any parameter is read, with the word and PC in the record
(40_cycle R102; 60_exceptions R201, R202). -/
def Obligations.UndecodableWordTraps : Prop :=
  ∀ (s : State) (w : Int), s.fsm = .running → s.cell s.pc = some w →
    (decode w = .error .invalidOpcode → step s = .next (enterFault s .invalidOpcode)) ∧
    (∀ p d, decode w = .error (.invalidAddressingMode p d) → step s = .next (enterFault s (.invalidAddressingMode p d)))

/-- From FAULTED or HALTED a load of any admitted text gives a RUNNING core with a clear record, and no other transaction
leaves FAULTED or HALTED (60_exceptions R208; decision D22). -/
def Obligations.OnlyLoadLeavesTerminalStates : Prop :=
  ∀ (s t : State) (x : Transaction) (reply : Reply), s.fsm ≠ .running → transact s x = .ok (reply, t) →
    ((∃ text, x = .load text) ∧ t.fsm = .running ∧ t.fault = FaultRecord.clear) ∨ (t.fsm = s.fsm ∧ t.fault = s.fault)

/-! ### The step -/

/-- When the word at PC of a RUNNING core decodes to an instruction, the step is that instruction's execution and nothing
more (40_cycle R100 to R104). -/
def Obligations.StepRunsTheDecodedInstruction : Prop :=
  ∀ (s : State) (i : Instr), s.fsm = .running → Fetches s i → step s = exec i s

/-- A STEP in HALTED or FAULTED changes nothing (40_cycle R108; decision D22). -/
def Obligations.TerminalStatesAreKept : Prop :=
  ∀ s : State, s.len ≠ 0 → s.fsm = .halted ∨ s.fsm = .faulted → step s = .next s

/-- Before the first load the core is stuck, and every transaction but LOAD is refused (70_reset R241, 93 U13; that LEN = 0
stands for "not loaded" is the model's choice, log entry 4). -/
def Obligations.UnloadedCoreIsStuck : Prop :=
  ∀ s : State, s.len = 0 → step s = .fault .notLoaded ∧
    ∀ x, (∀ text, x ≠ .load text) → transact s x = .error .notLoaded

/-- A loaded core always answers a next state, and which (40_cycle R100 to R104, R107, R108; 60_exceptions R206). In HALTED and
FAULTED it is the same state (decision D22). In RUNNING it is what executing the fetched instruction answers, or fault entry:
FETCH where PC names no cell (D11), the decoder's fault where the word there does not decode. -/
def Obligations.LoadedCoreAlwaysSteps : Prop :=
  ∀ s : State, s.len ≠ 0 → ∃ t, step s = .next t ∧ t.len ≠ 0 ∧
    (s.fsm ≠ .running → t = s) ∧
    (s.fsm = .running →
      (∃ i, Fetches s i ∧ exec i s = .next t) ∨
      (s.cell s.pc = none ∧ t = enterFault s (.outOfBounds .fetch s.pc)) ∨
      ∃ w e, s.cell s.pc = some w ∧ decode w = .error e ∧ t = enterFault s (raiseOfDecode e))

/-- 40_cycle R107: a step is a function of (MEM, LEN, PC, IN, IN_VALID) alone. Two RUNNING states of one core that agree there
step to states that agree in all a step computes, whatever their OUT, OUT_VALID and FAULT; both answer a next state. -/
def Obligations.StepIsAFunctionOfItsInputs : Prop :=
  ∀ s₁ s₂ : State, s₁.len ≠ 0 → s₁.fsm = .running → s₂.fsm = .running → s₁.cfg = s₂.cfg → s₁.mem = s₂.mem →
    s₁.len = s₂.len → s₁.pc = s₂.pc → s₁.inLatch = s₂.inLatch → s₁.inValid = s₂.inValid →
    ∃ t₁ t₂, step s₁ = .next t₁ ∧ step s₂ = .next t₂ ∧ SameEffect s₁ t₁ s₂ t₂

/-- The PC after a step that did not fault: PC + L, the target of a jump that is taken, or the HALT's own address; and PC + L
never leaves the W-bit range (40_cycle R106, 10_state R23; the HALT case is decision D10). -/
def Obligations.NextPcIsLengthOrTarget : Prop :=
  ∀ (s t : State) (i : Instr), s.WellFormed → s.fsm = .running → Fetches s i → step s = .next t → t.fsm ≠ .faulted →
    FitsW s.cfg.W (s.pc + (i.length : Int)) ∧
    match i with
    | .jit m1 m2 => ∃ c target, IsOperand s 1 m1 c ∧ IsOperand s 2 m2 target ∧ t.pc = if c ≠ 0 then target else s.pc + 3
    | .jif m1 m2 => ∃ c target, IsOperand s 1 m1 c ∧ IsOperand s 2 m2 target ∧ t.pc = if c = 0 then target else s.pc + 3
    | .halt => t.pc = s.pc
    | _ => t.pc = s.pc + (i.length : Int)

/-- A step changes at most one cell, and only ADD, MUL, STORE, LT and EQ change one (20_memory R55). -/
def Obligations.StepChangesAtMostOneCell : Prop :=
  ∀ s t : State, step s = .next t →
    (∀ a, t.cell a = s.cell a) ∨
    ∃ i d, Fetches s i ∧ (i.op = .add ∨ i.op = .mul ∨ i.op = .store ∨ i.op = .lt ∨ i.op = .eq) ∧
      s.cell (s.pc + (i.length : Int) - 1) = some d ∧ ∀ a, a ≠ d → t.cell a = s.cell a

/-- 20_memory R52: the only paths that change memory are a load, which replaces the whole array, the one write of a step of
ADD, MUL, STORE, LT or EQ, at the address its last parameter cell holds, and HOST_WRITE, which changes its cell. -/
def Obligations.OnlyListedPathsChangeMemory : Prop :=
  (∀ (i : Instr) (s t : State), exec i s = .next t →
    (i.op = .load ∨ i.op = .jit ∨ i.op = .jif ∨ i.op = .halt → t.mem = s.mem) ∧
    (t.mem = s.mem ∨ ∃ d v, s.cell (s.pc + (i.length : Int) - 1) = some d ∧ InMemory s d ∧ t.mem = s.mem.set d.toNat v)) ∧
  (∀ s t : State, step s = .next t → t.mem = s.mem ∨ ∃ i, Fetches s i ∧ exec i s = .next t) ∧
  (∀ (s t : State) (reply : Reply) (x : Transaction), transact s x = .ok (reply, t) →
    match x with
    | .load text => ∃ vs, parseProgram text = some vs ∧ t.mem = Memory.ofListFrom 0 vs ∧ t.len = vs.length
    | .hostWrite a v => InMemory s a ∧ t.mem = s.mem.set a.toNat v
    | .step => step s = .next t
    | .run n => runFor n s = .next t
    | _ => t.mem = s.mem)

/-- What a step writes is what the next fetch at that cell sees, with no fence (20_memory R62): an ADD or a STORE that writes
the cell after itself has the next step execute the word it wrote. -/
def Obligations.NextFetchSeesTheWrite : Prop :=
  ∀ (s : State) (j : Instr), s.mem.wf → s.fsm = .running →
    (∀ (m1 m2 m3 : Mode) (a b : Int), IsOperand s 1 m1 a → IsOperand s 2 m2 b → s.cell (s.pc + 3) = some (s.pc + 4) →
      InMemory s (s.pc + 4) → FitsW s.cfg.W (a + b) → decode (a + b) = .ok j →
      ∃ t, exec (.add m1 m2 m3) s = .next t ∧ t.pc = s.pc + 4 ∧ step t = exec j t) ∧
    (∀ m1 : Mode, s.inValid = true → s.cell (s.pc + 1) = some (s.pc + 2) → InMemory s (s.pc + 2) →
      decode s.inLatch = .ok j →
      ∃ t, exec (.store m1) s = .next t ∧ t.pc = s.pc + 2 ∧ step t = exec j t)

/-! ### Invariants -/

/-- Every step keeps every value within its width, memory in canonical form inside `[0, LEN)`, and LEN within MEM_CAP (00_scope
R5, R7; 10_state R21 to R23). -/
def Obligations.StepKeepsWellFormed : Prop :=
  ∀ s t : State, s.WellFormed → step s = .next t → t.WellFormed ∧ t.cfg = s.cfg ∧ t.len = s.len

/-- Every step keeps the fault record consistent with FSM and PC (10_state R29, R30; 60_exceptions R206). -/
def Obligations.StepKeepsFaultRecordConsistent : Prop :=
  ∀ s t : State, s.FaultConsistent → step s = .next t → t.FaultConsistent

/-- Every accepted transaction of the host keeps both invariants; a load establishes them (70_reset R240, R243, R247). -/
def Obligations.TransactionsKeepInvariants : Prop :=
  ∀ (s t : State) (x : Transaction) (reply : Reply), s.WellFormed → s.FaultConsistent → transact s x = .ok (reply, t) →
    t.WellFormed ∧ t.FaultConsistent

/-- The reset state meets both invariants, and has the values 70_reset R241 gives (with no text loaded; IN, OUT and LEN are the
model's choices, log entries 4, 6 and 7, and the statement does not name them). -/
def Obligations.ResetMeetsInvariants : Prop :=
  State.reset.WellFormed ∧ State.reset.FaultConsistent ∧ State.reset.pc = 0 ∧ State.reset.fsm = .running ∧
    State.reset.halted = false ∧ State.reset.inValid = false ∧ State.reset.outValid = false ∧
    State.reset.fault = FaultRecord.clear

/-! ### Halting and runs -/

/-- 45_halt R161: a RUNNING core goes to HALTED exactly by executing HALT, no other instruction writes FSM except through a
fault, HALTED stays under every step (decision D22) and every transaction but a load, and a run that succeeds ended in a HALT. -/
def Obligations.HaltIsTheOnlyWayToHalted : Prop :=
  (∀ s t : State, s.fsm = .running → step s = .next t → (t.fsm = .halted ↔ Fetches s .halt)) ∧
  (∀ (i : Instr) (s t : State), i ≠ .halt → exec i s = .next t →
    t.fsm = s.fsm ∨ ∃ r, t = enterFault s r) ∧
  (∀ s t : State, s.fsm = .halted → step s = .next t → t = s) ∧
  (∀ (s t : State) (x : Transaction) (reply : Reply), s.fsm = .halted → transact s x = .ok (reply, t) →
    t.fsm = .halted ∨ ∃ text, x = .load text) ∧
  (∀ s t : State, s.fsm = .running → RunSucceeds s t →
    ∃ n u, runFor n s = .next u ∧ u.fsm = .running ∧ Fetches u .halt ∧ step u = .next t)

/-- A run ends in at most one state, HALTED or FAULTED, and a longer budget does not change it; a run of a loaded core either
ends or hangs (40_cycle R109, R110). -/
def Obligations.RunEndsInOneStateOrHangs : Prop :=
  (∀ s t u : State, RunEnds s t → RunEnds s u → t = u) ∧
  (∀ s t : State, RunEnds s t → (RunSucceeds s t ∨ RunFails s t) ∧ ∃ n, ∀ m, n ≤ m → runFor m s = .next t) ∧
  (∀ s : State, s.len ≠ 0 → (∃ t, RunEnds s t) ∨ Hangs s)

/-- LEN never changes but by a load, which sets it to the number of integers loaded, 1 to MEM_CAP (decision D3); and it bounds
every access (10_state R22). -/
def Obligations.LenIsFixedByTheLoad : Prop :=
  (∀ s t : State, step s = .next t → t.len = s.len) ∧
  (∀ (s t : State) (x : Transaction) (reply : Reply), transact s x = .ok (reply, t) → (∀ text, x ≠ .load text) →
    t.len = s.len) ∧
  (∀ (s t : State) (text : List Char), s.loadText text = .ok t →
    ∃ vs, parseProgram text = some vs ∧ t.len = vs.length ∧ 1 ≤ t.len ∧ t.len ≤ s.cfg.memCap) ∧
  (∀ (s : State) (a : Int), s.cell a = none ↔ a < 0 ∨ (s.len : Int) ≤ a)

/-! ### The host's interface -/

/-- A load sets every piece of state (70_reset R240): the cells are the integers in order, PC 0, RUNNING, FAULT clear, IN_VALID
and OUT_VALID 0. IN and OUT, unspecified there, are not named. Clearing IN_VALID and OUT_VALID is decisions D7 and D9. -/
def Obligations.LoadResetsEverything : Prop :=
  ∀ (s t : State) (text : List Char), s.loadText text = .ok t →
    ∃ vs, parseProgram text = some vs ∧ t.len = vs.length ∧ (∀ k : Nat, k < vs.length → t.cell k = vs[k]?) ∧
      t.pc = 0 ∧ t.fsm = .running ∧ t.fault = FaultRecord.clear ∧ t.inValid = false ∧ t.outValid = false ∧ t.cfg = s.cfg

/-- A load is refused exactly on a text outside the grammar, a literal that does not fit, no integer, or more than MEM_CAP
integers (70_reset R243; decision D15). -/
def Obligations.LoadIsRefusedExactly : Prop :=
  ∀ (s : State) (text : List Char), (∃ t, s.loadText text = .ok t) ↔
    ∃ vs, InGrammar text vs ∧ s.cfg.Admits vs

/-- 70_reset R242: after a load the first step fetches `MEM[0]`. -/
def Obligations.FirstStepFetchesCellZero : Prop :=
  ∀ (s t : State) (text : List Char), s.loadText text = .ok t →
    ∃ w, t.cell 0 = some w ∧ (∀ i, decode w = .ok i → step t = exec i t) ∧
      (∀ e, decode w = .error e → step t = .next (enterFault t (raiseOfDecode e)))

/-- The parser accepts exactly the texts of the grammar, with the integers they spell (70_reset R244; decision D15). -/
def Obligations.ParserAcceptsExactlyTheGrammar : Prop :=
  ∀ (text : List Char) (vs : List Int), parseProgram text = some vs ↔ InGrammar text vs

/-- "For every memory `m`, `LOAD(VIEW())` of `m` gives back `m`" (70_reset R245; decision D15): viewing a loaded core and
loading the text gives the same cells, from any core of the same parameters. -/
def Obligations.LoadOfViewGivesTheMemoryBack : Prop :=
  ∀ s u : State, s.WellFormed → s.len ≠ 0 → u.cfg = s.cfg →
    ∃ t, u.loadText s.viewText = .ok t ∧ t.mem = s.mem ∧ t.len = s.len

/-- HOST_WRITE (70_reset R249; decision D16): in RUNNING, inside memory and with a value that fits, one cell changes and
nothing else; otherwise it is refused, a value that does not fit by the model's choice (log entry 14). -/
def Obligations.HostWriteContract : Prop :=
  ∀ (s : State) (a v : Int), s.len ≠ 0 →
    (s.mem.wf → s.fsm = .running → InMemory s a → FitsW s.cfg.W v →
      ∃ t, transact s (.hostWrite a v) = .ok (.nothing, t) ∧ t.cell a = some v ∧ (∀ b, b ≠ a → t.cell b = s.cell b) ∧
        t = { s with mem := t.mem }) ∧
    (s.fsm ≠ .running ∨ ¬ InMemory s a ∨ ¬ FitsW s.cfg.W v → ∃ e, transact s (.hostWrite a v) = .error e)

/-- 70_reset R250: SET_INPUT writes IN and IN_VALID, in any FSM state, and the next STORE writes the value and consumes it
(decision D7). -/
def Obligations.SetInputIsConsumedByTheNextStore : Prop :=
  ∀ (s : State) (v : Int), s.len ≠ 0 → FitsW s.cfg.W v →
    transact s (.setInput v) = .ok (.nothing, { s with inLatch := v, inValid := true }) ∧
    ∀ (m1 : Mode) (d : Int), s.mem.wf → s.cell (s.pc + 1) = some d → InMemory s d →
      ∃ t, exec (.store m1) { s with inLatch := v, inValid := true } = .next t ∧ t.cell d = some v ∧ t.inValid = false

/-- GET_OUTPUT answers the value most recently written by a LOAD, none before one, and changes nothing (70_reset R251, 10_state
R28; decision D9). It answers OUT while OUT_VALID is 1; that it answers no output, and not the pair (0, OUT), while OUT_VALID is
0 is the model's choice (log entry 14; 93 U12). Most recently: a LOAD writes both; every other step keeps both, in HALTED and
FAULTED too; of the host's transactions a load clears OUT_VALID, STEP and RUN do what steps do, and every other one keeps
both. -/
def Obligations.GetOutputAnswersTheLastLoad : Prop :=
  (∀ s : State, s.len ≠ 0 →
    (s.outValid = false → transact s .getOutput = .ok (.output none, s)) ∧
    (s.outValid = true → transact s .getOutput = .ok (.output (some s.outLatch), s))) ∧
  (∀ (s t : State) (m1 : Mode) (v : Int), s.len ≠ 0 → IsOperand s 1 m1 v → exec (.load m1) s = .next t →
    transact t .getOutput = .ok (.output (some v), t)) ∧
  (∀ s t : State, step s = .next t →
    (t.outLatch = s.outLatch ∧ t.outValid = s.outValid) ∨
    (s.fsm = .running ∧ ∃ m1 v, Fetches s (.load m1) ∧ IsOperand s 1 m1 v ∧ t.outLatch = v ∧ t.outValid = true)) ∧
  (∀ (s t : State) (x : Transaction) (reply : Reply), transact s x = .ok (reply, t) →
    match x with
    | .load _ => t.outValid = false
    | .step => step s = .next t
    | .run n => runFor n s = .next t
    | _ => t.outLatch = s.outLatch ∧ t.outValid = s.outValid)

/-- HOST_READ, VIEW, GET_OUTPUT and STATUS change no state and answer what it holds (70_reset R247; decision D16). -/
def Obligations.ObservingTransactionsChangeNothing : Prop :=
  ∀ s : State, s.len ≠ 0 →
    (∀ a v, s.cell a = some v → transact s (.hostRead a) = .ok (.value v, s)) ∧
    (∀ a, s.cell a = none → transact s (.hostRead a) = .error .outOfBounds) ∧
    transact s .view = .ok (.text s.viewText, s) ∧
    transact s .status = .ok (.status s.fsm s.pc s.fault, s) ∧
    (∃ o, transact s .getOutput = .ok (.output o, s))

/-! ### The assembly notation -/

/-- The pseudo-instructions, standing at PC of a RUNNING core, do what 30_encoding R86 says of every form (decision D17): `JMP s`
goes to the operand `s`, `#t` or `[a]`; `NOP` falls through to PC + 3; `MOV s, d` writes the operand `s`, `#v` or `[a]`, to the
cell `d`, written `[d]` or `#d` (R85, R78). Labels are those of the program the line belongs to. -/
def Obligations.PseudoInstructionsAct : Prop :=
  ∀ (s : State) (program : List AsmLine) (l : AsmLine) (cells : List Int), s.mem.wf → s.fsm = .running →
    valuesOf program l.numbers = some cells → (∀ k : Nat, k < cells.length → s.cell (s.pc + k) = cells[k]?) →
    (∀ o target, l = .jmp o → o.Gives program s target → step s = .next { s with pc := target }) ∧
    (l = .nop → step s = .next { s with pc := s.pc + 3 }) ∧
    (∀ o dest v d, l = .mov o dest → o.Gives program s v → dest.number.value program = some d → FitsW s.cfg.W v →
      InMemory s d → ∃ t, step s = .next t ∧ Wrote s t d v 4)
end

