-- ==== Sys2Proof/Laws/Memory.lean ====
section
/-!
SUPPORT. The laws of memory: read after write, and that every memory operation keeps the canonical form, the address range and
the width.
-/

namespace Sys2Proof.Machine

theorem Memory.get_of_forall_ne (m : Memory) (a : Nat) (h : ∀ c ∈ m, c.1 ≠ a) : m.get a = Memory.unlisted := by
  induction m with
  | nil => rfl
  | cons c rest ih =>
    obtain ⟨b, x⟩ := c
    have hb : b ≠ a := h (b, x) (by simp)
    simp only [Memory.get, hb, if_false]
    exact ih fun c hc => h c (by simp [hc])

/-- A write leaves every other address alone, canonical memory or not. -/
theorem Memory.get_set_other (m : Memory) (a b : Nat) (v : Int) (h : b ≠ a) : (m.set a v).get b = m.get b := by
  induction m with
  | nil => by_cases hv : v = Memory.unlisted <;> simp [Memory.set, Memory.get, hv, h.symm]
  | cons c rest ih =>
    obtain ⟨k, x⟩ := c
    by_cases hk : k < a
    · simp [Memory.set, Memory.get, hk, ih]
    · by_cases he : k = a
      · subst he
        by_cases hv : v = Memory.unlisted <;> simp [Memory.set, Memory.get, hv, h.symm]
      · by_cases hv : v = Memory.unlisted <;> simp [Memory.set, Memory.get, hk, he, hv, h.symm]

/-- A read after a write to the same address gives the value written. -/
theorem Memory.get_set_same (m : Memory) (a : Nat) (v : Int) (hm : m.wf) : (m.set a v).get a = v := by
  induction m with
  | nil => by_cases hv : v = Memory.unlisted <;> simp [Memory.set, Memory.get, hv]
  | cons c rest ih =>
    obtain ⟨k, x⟩ := c
    obtain ⟨hp, hz⟩ := hm
    have hp' := List.pairwise_cons.mp hp
    have hrest : Memory.wf rest := ⟨hp'.2, fun c hc => hz c (by simp [hc])⟩
    by_cases hk : k < a
    · have : k ≠ a := by omega
      simp [Memory.set, Memory.get, hk, this, ih hrest]
    · by_cases he : k = a
      · subst he
        by_cases hv : v = Memory.unlisted
        · have : ∀ c ∈ rest, c.1 ≠ k := fun c hc => by have := hp'.1 c hc; simp at this; omega
          simp [Memory.set, hv, Memory.get_of_forall_ne rest k this]
        · simp [Memory.set, Memory.get, hv]
      · by_cases hv : v = Memory.unlisted
        · have : ∀ c ∈ (k, x) :: rest, c.1 ≠ a := by
            intro c hc
            rcases List.mem_cons.mp hc with rfl | hc
            · exact he
            · have := hp'.1 c hc
              simp at this
              omega
          simp [Memory.set, hk, he, hv, Memory.get_of_forall_ne _ a this]
        · simp [Memory.set, Memory.get, hk, he, hv]

/-- Every entry after a write was there before it, or is the one written. -/
theorem Memory.mem_set (m : Memory) (a : Nat) (v : Int) (c : Nat × Int) (hc : c ∈ m.set a v) :
    c ∈ m ∨ (c = (a, v) ∧ v ≠ Memory.unlisted) := by
  induction m with
  | nil => by_cases hv : v = Memory.unlisted <;> simp_all [Memory.set]
  | cons d rest ih =>
    obtain ⟨k, x⟩ := d
    by_cases hk : k < a
    · simp only [Memory.set, hk, if_true, List.mem_cons] at hc ⊢
      rcases hc with hc | hc
      · exact .inl (.inl hc)
      · exact (ih hc).imp_left .inr
    · by_cases he : k = a <;> by_cases hv : v = Memory.unlisted <;> simp_all [Memory.set] <;> tauto

/-- A write keeps the canonical form. -/
theorem Memory.set_wf (m : Memory) (a : Nat) (v : Int) (hm : m.wf) : (m.set a v).wf := by
  induction m with
  | nil => by_cases hv : v = Memory.unlisted <;> simp [Memory.set, Memory.wf, hv]
  | cons d rest ih =>
    obtain ⟨k, x⟩ := d
    obtain ⟨hp, hz⟩ := hm
    have hp' := List.pairwise_cons.mp hp
    have hrest : Memory.wf rest := ⟨hp'.2, fun c hc => hz c (by simp [hc])⟩
    have hx : x ≠ Memory.unlisted := hz (k, x) (by simp)
    by_cases hk : k < a
    · simp only [Memory.set, hk, if_true]
      refine ⟨List.pairwise_cons.mpr ⟨fun c hc => ?_, (ih hrest).1⟩, fun c hc => ?_⟩
      · rcases Memory.mem_set rest a v c hc with hc | ⟨rfl, -⟩
        · exact hp'.1 c hc
        · exact hk
      · rcases List.mem_cons.mp hc with rfl | hc
        · exact hx
        · exact (ih hrest).2 c hc
    · by_cases he : k = a
      · subst he
        by_cases hv : v = Memory.unlisted
        · simpa [Memory.set, hv] using hrest
        · refine ⟨?_, ?_⟩
          · simpa [Memory.set, hv] using hp
          · intro c hc
            simp only [Memory.set, hk, hv, if_false, if_true, List.mem_cons] at hc
            rcases hc with rfl | hc
            · exact hv
            · exact hrest.2 c hc
      · by_cases hv : v = Memory.unlisted
        · have : Memory.set ((k, x) :: rest) a v = (k, x) :: rest := by simp [Memory.set, hk, he, hv]
          rw [this]
          exact ⟨hp, hz⟩
        · refine ⟨?_, ?_⟩
          · simp only [Memory.set, hk, he, hv, if_false]
            refine List.pairwise_cons.mpr ⟨fun c hc => ?_, hp⟩
            rcases List.mem_cons.mp hc with rfl | hc
            · show a < k
              omega
            · have := hp'.1 c hc
              simp at this ⊢
              omega
          · intro c hc
            simp only [Memory.set, hk, he, hv, if_false, List.mem_cons] at hc
            rcases hc with rfl | rfl | hc
            · exact hv
            · exact hx
            · exact hrest.2 c hc

/-- A loaded list: every entry is one of its integers, at its place. -/
theorem Memory.mem_ofListFrom (a : Nat) (vs : List Int) (c : Nat × Int) (hc : c ∈ Memory.ofListFrom a vs) :
    a ≤ c.1 ∧ c.1 < a + vs.length ∧ c.2 ∈ vs ∧ c.2 ≠ Memory.unlisted := by
  induction vs generalizing a with
  | nil => simp [Memory.ofListFrom] at hc
  | cons v vs ih =>
    by_cases hv : v = Memory.unlisted
    · simp only [Memory.ofListFrom, hv, if_true] at hc
      have := ih (a + 1) hc
      simp only [List.length_cons, List.mem_cons]
      exact ⟨by omega, by omega, .inr this.2.2.1, this.2.2.2⟩
    · simp only [Memory.ofListFrom, hv, if_false, List.mem_cons] at hc
      rcases hc with rfl | hc
      · simp [hv]
      · have := ih (a + 1) hc
        simp only [List.length_cons, List.mem_cons]
        exact ⟨by omega, by omega, .inr this.2.2.1, this.2.2.2⟩

/-- A loaded list is in canonical form. -/
theorem Memory.ofListFrom_wf (a : Nat) (vs : List Int) : (Memory.ofListFrom a vs).wf := by
  refine ⟨?_, fun c hc => (Memory.mem_ofListFrom a vs c hc).2.2.2⟩
  induction vs generalizing a with
  | nil => simp [Memory.ofListFrom]
  | cons v vs ih =>
    by_cases hv : v = Memory.unlisted
    · simpa [Memory.ofListFrom, hv] using ih (a + 1)
    · simp only [Memory.ofListFrom, hv, if_false]
      refine List.pairwise_cons.mpr ⟨fun c hc => ?_, ih (a + 1)⟩
      have := (Memory.mem_ofListFrom (a + 1) vs c hc).1
      show a < c.1
      omega

/-- A loaded list reads back integer by integer. -/
theorem Memory.get_ofListFrom (a : Nat) (vs : List Int) (k : Nat) (hk : k < vs.length) :
    (Memory.ofListFrom a vs).get (a + k) = vs[k] := by
  induction vs generalizing a k with
  | nil => simp at hk
  | cons v vs ih =>
    cases k with
    | zero =>
      by_cases hv : v = Memory.unlisted
      · have hne : ∀ c ∈ Memory.ofListFrom (a + 1) vs, c.1 ≠ a := fun c hc => by
          have := (Memory.mem_ofListFrom (a + 1) vs c hc).1
          omega
        simp [Memory.ofListFrom, hv, Memory.get_of_forall_ne _ a hne]
      · simp [Memory.ofListFrom, hv, Memory.get]
    | succ k =>
      have h := ih (a + 1) k (by simpa using hk)
      have he : a + 1 + k = a + (k + 1) := by omega
      rw [he] at h
      by_cases hv : v = Memory.unlisted
      · simpa [Memory.ofListFrom, hv] using h
      · simpa [Memory.ofListFrom, hv, Memory.get] using h

/-- A value read from memory is the unlisted value or one of the entries. -/
theorem Memory.get_mem (m : Memory) (a : Nat) : m.get a = Memory.unlisted ∨ (a, m.get a) ∈ m := by
  induction m with
  | nil => exact .inl rfl
  | cons c rest ih =>
    obtain ⟨b, x⟩ := c
    by_cases h : b = a
    · subst h
      simp [Memory.get]
    · simp only [Memory.get, h, if_false]
      exact ih.imp_right fun h' => by simp [h']

/-- Two canonical memories that read alike everywhere are equal data. -/
theorem Memory.ext_of_wf (m n : Memory) (hm : m.wf) (hn : n.wf) (h : ∀ a, m.get a = n.get a) : m = n := by
  induction m generalizing n with
  | nil =>
    cases n with
    | nil => rfl
    | cons d rest =>
      obtain ⟨b, x⟩ := d
      have := h b
      simp [Memory.get] at this
      exact absurd this.symm (hn.2 (b, x) (by simp))
  | cons c rest ih =>
    obtain ⟨a, x⟩ := c
    have hx := hm.2 (a, x) (by simp)
    have hmp := List.pairwise_cons.mp hm.1
    have hmr : Memory.wf rest := ⟨hmp.2, fun c hc => hm.2 c (by simp [hc])⟩
    cases n with
    | nil =>
      have := h a
      simp [Memory.get] at this
      exact absurd this hx
    | cons d rest' =>
      obtain ⟨b, y⟩ := d
      have hy := hn.2 (b, y) (by simp)
      have hnp := List.pairwise_cons.mp hn.1
      have hnr : Memory.wf rest' := ⟨hnp.2, fun c hc => hn.2 c (by simp [hc])⟩
      have below : ∀ (k : Nat) (p : Memory), (∀ c ∈ p, k < c.1) → p.get k = Memory.unlisted :=
        fun k p hp => Memory.get_of_forall_ne p k fun c hc => by have := hp c hc; omega
      rcases Nat.lt_trichotomy a b with hab | hab | hab
      · have ha := h a
        rw [show Memory.get ((b, y) :: rest') a = Memory.unlisted from
          below a _ fun c hc => by
            rcases List.mem_cons.mp hc with rfl | hc
            · exact hab
            · exact Nat.lt_trans hab (hnp.1 c hc)] at ha
        simp [Memory.get] at ha
        exact absurd ha hx
      · subst hab
        have ha := h a
        simp [Memory.get] at ha
        subst ha
        refine congrArg _ (ih rest' hmr hnr fun k => ?_)
        by_cases hk : a = k
        · subst hk
          rw [below a rest hmp.1, below a rest' hnp.1]
        · have := h k
          simpa [Memory.get, hk] using this
      · have hb := h b
        rw [show Memory.get ((a, x) :: rest) b = Memory.unlisted from
          below b _ fun c hc => by
            rcases List.mem_cons.mp hc with rfl | hc
            · exact hab
            · exact Nat.lt_trans hab (hmp.1 c hc)] at hb
        simp [Memory.get] at hb
        exact absurd hb.symm hy

end Sys2Proof.Machine
end

