-- ==== Sys2Proof/Laws/State.lean ====
section
/-!
SUPPORT. One lemma per field per update of the state.
-/

namespace Sys2Proof.Machine

@[simp] theorem State.withCell_cfg (s : State) (a v : Int) : (s.withCell a v).cfg = s.cfg := rfl
@[simp] theorem State.withCell_mem (s : State) (a v : Int) : (s.withCell a v).mem = s.mem.set a.toNat v := rfl
@[simp] theorem State.withCell_len (s : State) (a v : Int) : (s.withCell a v).len = s.len := rfl
@[simp] theorem State.withCell_pc (s : State) (a v : Int) : (s.withCell a v).pc = s.pc := rfl
@[simp] theorem State.withCell_fsm (s : State) (a v : Int) : (s.withCell a v).fsm = s.fsm := rfl
@[simp] theorem State.withCell_inLatch (s : State) (a v : Int) : (s.withCell a v).inLatch = s.inLatch := rfl
@[simp] theorem State.withCell_inValid (s : State) (a v : Int) : (s.withCell a v).inValid = s.inValid := rfl
@[simp] theorem State.withCell_outLatch (s : State) (a v : Int) : (s.withCell a v).outLatch = s.outLatch := rfl
@[simp] theorem State.withCell_outValid (s : State) (a v : Int) : (s.withCell a v).outValid = s.outValid := rfl
@[simp] theorem State.withCell_fault (s : State) (a v : Int) : (s.withCell a v).fault = s.fault := rfl

@[simp] theorem State.withPc_cfg (s : State) (a : Int) : (s.withPc a).cfg = s.cfg := rfl
@[simp] theorem State.withPc_mem (s : State) (a : Int) : (s.withPc a).mem = s.mem := rfl
@[simp] theorem State.withPc_len (s : State) (a : Int) : (s.withPc a).len = s.len := rfl
@[simp] theorem State.withPc_pc (s : State) (a : Int) : (s.withPc a).pc = a := rfl
@[simp] theorem State.withPc_fsm (s : State) (a : Int) : (s.withPc a).fsm = s.fsm := rfl
@[simp] theorem State.withPc_inLatch (s : State) (a : Int) : (s.withPc a).inLatch = s.inLatch := rfl
@[simp] theorem State.withPc_inValid (s : State) (a : Int) : (s.withPc a).inValid = s.inValid := rfl
@[simp] theorem State.withPc_outLatch (s : State) (a : Int) : (s.withPc a).outLatch = s.outLatch := rfl
@[simp] theorem State.withPc_outValid (s : State) (a : Int) : (s.withPc a).outValid = s.outValid := rfl
@[simp] theorem State.withPc_fault (s : State) (a : Int) : (s.withPc a).fault = s.fault := rfl

@[simp] theorem State.consumeInput_cfg (s : State) : s.consumeInput.cfg = s.cfg := rfl
@[simp] theorem State.consumeInput_mem (s : State) : s.consumeInput.mem = s.mem := rfl
@[simp] theorem State.consumeInput_len (s : State) : s.consumeInput.len = s.len := rfl
@[simp] theorem State.consumeInput_pc (s : State) : s.consumeInput.pc = s.pc := rfl
@[simp] theorem State.consumeInput_fsm (s : State) : s.consumeInput.fsm = s.fsm := rfl
@[simp] theorem State.consumeInput_inLatch (s : State) : s.consumeInput.inLatch = s.inLatch := rfl
@[simp] theorem State.consumeInput_inValid (s : State) : s.consumeInput.inValid = false := rfl
@[simp] theorem State.consumeInput_outLatch (s : State) : s.consumeInput.outLatch = s.outLatch := rfl
@[simp] theorem State.consumeInput_outValid (s : State) : s.consumeInput.outValid = s.outValid := rfl
@[simp] theorem State.consumeInput_fault (s : State) : s.consumeInput.fault = s.fault := rfl

@[simp] theorem State.withOutput_cfg (s : State) (v : Int) : (s.withOutput v).cfg = s.cfg := rfl
@[simp] theorem State.withOutput_mem (s : State) (v : Int) : (s.withOutput v).mem = s.mem := rfl
@[simp] theorem State.withOutput_len (s : State) (v : Int) : (s.withOutput v).len = s.len := rfl
@[simp] theorem State.withOutput_pc (s : State) (v : Int) : (s.withOutput v).pc = s.pc := rfl
@[simp] theorem State.withOutput_fsm (s : State) (v : Int) : (s.withOutput v).fsm = s.fsm := rfl
@[simp] theorem State.withOutput_inLatch (s : State) (v : Int) : (s.withOutput v).inLatch = s.inLatch := rfl
@[simp] theorem State.withOutput_inValid (s : State) (v : Int) : (s.withOutput v).inValid = s.inValid := rfl
@[simp] theorem State.withOutput_outLatch (s : State) (v : Int) : (s.withOutput v).outLatch = v := rfl
@[simp] theorem State.withOutput_outValid (s : State) (v : Int) : (s.withOutput v).outValid = true := rfl
@[simp] theorem State.withOutput_fault (s : State) (v : Int) : (s.withOutput v).fault = s.fault := rfl

@[simp] theorem State.halt_cfg (s : State) : s.halt.cfg = s.cfg := rfl
@[simp] theorem State.halt_mem (s : State) : s.halt.mem = s.mem := rfl
@[simp] theorem State.halt_len (s : State) : s.halt.len = s.len := rfl
@[simp] theorem State.halt_pc (s : State) : s.halt.pc = s.pc := rfl
@[simp] theorem State.halt_fsm (s : State) : s.halt.fsm = .halted := rfl
@[simp] theorem State.halt_inLatch (s : State) : s.halt.inLatch = s.inLatch := rfl
@[simp] theorem State.halt_inValid (s : State) : s.halt.inValid = s.inValid := rfl
@[simp] theorem State.halt_outLatch (s : State) : s.halt.outLatch = s.outLatch := rfl
@[simp] theorem State.halt_outValid (s : State) : s.halt.outValid = s.outValid := rfl
@[simp] theorem State.halt_fault (s : State) : s.halt.fault = s.fault := rfl

@[simp] theorem enterFault_cfg (s : State) (r : Raise) : (enterFault s r).cfg = s.cfg := rfl
@[simp] theorem enterFault_mem (s : State) (r : Raise) : (enterFault s r).mem = s.mem := rfl
@[simp] theorem enterFault_len (s : State) (r : Raise) : (enterFault s r).len = s.len := rfl
@[simp] theorem enterFault_pc (s : State) (r : Raise) : (enterFault s r).pc = s.pc := rfl
@[simp] theorem enterFault_fsm (s : State) (r : Raise) : (enterFault s r).fsm = .faulted := rfl
@[simp] theorem enterFault_inLatch (s : State) (r : Raise) : (enterFault s r).inLatch = s.inLatch := rfl
@[simp] theorem enterFault_inValid (s : State) (r : Raise) : (enterFault s r).inValid = s.inValid := rfl
@[simp] theorem enterFault_outLatch (s : State) (r : Raise) : (enterFault s r).outLatch = s.outLatch := rfl
@[simp] theorem enterFault_outValid (s : State) (r : Raise) : (enterFault s r).outValid = s.outValid := rfl
@[simp] theorem enterFault_fault (s : State) (r : Raise) : (enterFault s r).fault = r.record s.pc s.wordAtPc := rfl

@[simp] theorem State.loadProgram_cfg (s : State) (vs : List Int) : (s.loadProgram vs).cfg = s.cfg := rfl
@[simp] theorem State.loadProgram_mem (s : State) (vs : List Int) : (s.loadProgram vs).mem = Memory.ofListFrom 0 vs := rfl
@[simp] theorem State.loadProgram_len (s : State) (vs : List Int) : (s.loadProgram vs).len = vs.length := rfl
@[simp] theorem State.loadProgram_pc (s : State) (vs : List Int) : (s.loadProgram vs).pc = 0 := rfl
@[simp] theorem State.loadProgram_fsm (s : State) (vs : List Int) : (s.loadProgram vs).fsm = .running := rfl
@[simp] theorem State.loadProgram_inLatch (s : State) (vs : List Int) : (s.loadProgram vs).inLatch = Config.latchAtReset := rfl
@[simp] theorem State.loadProgram_inValid (s : State) (vs : List Int) : (s.loadProgram vs).inValid = false := rfl
@[simp] theorem State.loadProgram_outLatch (s : State) (vs : List Int) : (s.loadProgram vs).outLatch = Config.latchAtReset := rfl
@[simp] theorem State.loadProgram_outValid (s : State) (vs : List Int) : (s.loadProgram vs).outValid = false := rfl
@[simp] theorem State.loadProgram_fault (s : State) (vs : List Int) : (s.loadProgram vs).fault = FaultRecord.clear := rfl

end Sys2Proof.Machine
end

