-- ==== Sys2Proof/Laws/Ops.lean ====
section
/-!
SUPPORT. What the named operations over memory and registers answer.
-/

namespace Sys2Proof.Machine

theorem State.cell_eq_some_iff (s : State) (a v : Int) :
    s.cell a = some v ↔ InMemory s a ∧ s.mem.get a.toNat = v := by
  unfold State.cell InMemory
  split <;> simp_all

theorem State.cell_eq_none_iff (s : State) (a : Int) : s.cell a = none ↔ ¬ InMemory s a := by
  unfold State.cell InMemory
  split <;> simp_all

/-- A cell is a function of memory and LEN alone. -/
theorem State.cell_congr (s t : State) (a : Int) (hm : t.mem = s.mem) (hl : t.len = s.len) : t.cell a = s.cell a := by
  unfold State.cell
  rw [hm, hl]

@[simp] theorem State.cell_withPc (s : State) (p a : Int) : (s.withPc p).cell a = s.cell a := rfl
@[simp] theorem State.cell_consumeInput (s : State) (a : Int) : s.consumeInput.cell a = s.cell a := rfl
@[simp] theorem State.cell_withOutput (s : State) (v a : Int) : (s.withOutput v).cell a = s.cell a := rfl
@[simp] theorem State.cell_halt (s : State) (a : Int) : s.halt.cell a = s.cell a := rfl
@[simp] theorem State.cell_enterFault (s : State) (r : Raise) (a : Int) : (enterFault s r).cell a = s.cell a := rfl

/-- The cell written holds the value written. -/
theorem State.cell_withCell_same (s : State) (a v : Int) (hm : s.mem.wf) (ha : InMemory s a) :
    (s.withCell a v).cell a = some v :=
  ((s.withCell a v).cell_eq_some_iff a v).mpr ⟨ha, Memory.get_set_same s.mem a.toNat v hm⟩

/-- Every other cell is unchanged by a write. -/
theorem State.cell_withCell_other (s : State) (a b v : Int) (ha : 0 ≤ a) (h : b ≠ a) :
    (s.withCell a v).cell b = s.cell b := by
  by_cases hb : 0 ≤ b ∧ b < (s.len : Int)
  · have hne : b.toNat ≠ a.toNat := fun he => h (by omega)
    simp [State.cell, hb, Memory.get_set_other s.mem a.toNat b.toNat v hne]
  · simp [State.cell, hb]

theorem memRead_ok_iff (s : State) (a v : Int) (k : AccessKind) : memRead s a k = .ok v ↔ s.cell a = some v := by
  unfold memRead
  cases s.cell a <;> simp

theorem memRead_error_iff (s : State) (a : Int) (k : AccessKind) (r : Raise) :
    memRead s a k = .error r ↔ s.cell a = none ∧ r = .outOfBounds k a := by
  unfold memRead
  cases s.cell a <;> simp [eq_comm]

theorem memWrite_ok_iff (s t : State) (a v : Int) : memWrite s a v = .ok t ↔ InMemory s a ∧ t = s.withCell a v := by
  unfold memWrite InMemory
  split <;> simp_all [eq_comm]

theorem memWrite_error_iff (s : State) (a v : Int) (r : Raise) :
    memWrite s a v = .error r ↔ ¬ InMemory s a ∧ r = .outOfBounds .write a := by
  unfold memWrite InMemory
  split <;> simp_all [eq_comm]

theorem memWrite_inside (s : State) (a v : Int) (h : InMemory s a) : memWrite s a v = .ok (s.withCell a v) :=
  (memWrite_ok_iff s _ a v).mpr ⟨h, rfl⟩

theorem memWrite_outside (s : State) (a v : Int) (h : ¬ InMemory s a) : memWrite s a v = .error (.outOfBounds .write a) :=
  (memWrite_error_iff s a v _).mpr ⟨h, rfl⟩

@[simp] theorem commit_ok (s t : State) : commit s (.ok t) = .next t := rfl
@[simp] theorem commit_error (s : State) (r : Raise) : commit s (.error r) = .next (enterFault s r) := rfl

/-- A step that raised is fault entry, and one that did not is what it staged. -/
theorem commit_eq_next_iff (s t : State) (e : Except Raise State) :
    commit s e = .next t ↔ e = .ok t ∨ ∃ r, e = .error r ∧ t = enterFault s r := by
  cases e <;> simp [eq_comm]

theorem FitsW.zero (W : Nat) : FitsW W 0 := by
  have : 1 ≤ halfRange W := Nat.one_le_two_pow
  exact ⟨by omega, by omega⟩

/-- Every value a well-formed state's memory holds is within the width. -/
theorem State.WellFormed.cell_fits {s : State} (h : s.WellFormed) {a v : Int} (hc : s.cell a = some v) :
    FitsW s.cfg.W v := by
  obtain ⟨-, hv⟩ := (s.cell_eq_some_iff a v).mp hc
  rcases Memory.get_mem s.mem a.toNat with h0 | hm
  · rw [hv] at h0
    subst h0
    exact FitsW.zero s.cfg.W
  · rw [hv] at hm
    exact h.memFits _ hm

end Sys2Proof.Machine
end

