-- ==== Sys2Proof/Laws/Operands.lean ====
section
/-!
SUPPORT. The resolver's functions answer exactly what `IsOperand` and `OperandFault` read off memory.
-/

namespace Sys2Proof.Machine

theorem rawParam_ok_iff (s : State) (k v : Int) : rawParam s k = .ok v ↔ s.cell (s.pc + k) = some v :=
  memRead_ok_iff s (s.pc + k) v .param

theorem rawParam_error_iff (s : State) (k : Int) (r : Raise) :
    rawParam s k = .error r ↔ s.cell (s.pc + k) = none ∧ r = .outOfBounds .param (s.pc + k) :=
  memRead_error_iff s (s.pc + k) .param r

theorem destOperand_ok_iff (s : State) (k v : Int) (m : Mode) : destOperand s k m = .ok v ↔ s.cell (s.pc + k) = some v :=
  rawParam_ok_iff s k v

theorem destOperand_error_iff (s : State) (k : Int) (m : Mode) (r : Raise) :
    destOperand s k m = .error r ↔ s.cell (s.pc + k) = none ∧ r = .outOfBounds .param (s.pc + k) :=
  rawParam_error_iff s k r

theorem srcOperand_ok_iff (s : State) (k v : Int) (m : Mode) : srcOperand s k m = .ok v ↔ IsOperand s k m v := by
  unfold srcOperand IsOperand
  cases h : rawParam s k with
  | error r => simp [((rawParam_error_iff s k r).mp h).1]
  | ok raw =>
    rw [(rawParam_ok_iff s k raw).mp h]
    cases m with
    | immediate => simp [eq_comm]
    | position => simp [memRead_ok_iff]

theorem srcOperand_error_iff (s : State) (k : Int) (m : Mode) (r : Raise) :
    srcOperand s k m = .error r ↔ OperandFault s k m r := by
  unfold srcOperand OperandFault
  cases h : rawParam s k with
  | error r' =>
    obtain ⟨h1, rfl⟩ := (rawParam_error_iff s k r').mp h
    simp [h1, eq_comm]
  | ok raw =>
    rw [(rawParam_ok_iff s k raw).mp h]
    cases m <;> simp [memRead_error_iff]

end Sys2Proof.Machine
end

