-- ==== Sys2Proof/Laws/Formats.lean ====
section
/-!
SUPPORT. Everything the shared steps of the formats can answer: what they stage when they raise nothing, and what they raise.
-/

namespace Sys2Proof.Machine

/-- A raise the resolve or the execute phase of a step from `s` can make: never one of fetch or decode, and an address it
names is a parameter cell's or a value memory holds. -/
inductive ExecRaise (s : State) : Raise → Prop where
  | overflow : ExecRaise s .overflow
  | inputUndefined : ExecRaise s .inputUndefined
  | param (k : Int) : 1 ≤ k → k ≤ 3 → ExecRaise s (.outOfBounds .param (s.pc + k))
  | named (kind : AccessKind) (a b : Int) : kind ≠ .fetch → s.cell b = some a → ExecRaise s (.outOfBounds kind a)

theorem OperandFault.execRaise {s : State} {k : Int} {m : Mode} {r : Raise} (h : OperandFault s k m r) (h1 : 1 ≤ k)
    (h3 : k ≤ 3) : ExecRaise s r := by
  rcases h with ⟨-, rfl⟩ | ⟨-, raw, hraw, -, rfl⟩
  · exact .param k h1 h3
  · exact .named _ _ _ (by decide) hraw

theorem fitResult_ok_iff (c : Config) (r v : Int) : fitResult c r = .ok v ↔ FitsW c.W r ∧ v = r := by
  unfold fitResult
  split
  next h => exact ⟨fun e => by cases e; exact ⟨h, rfl⟩, fun e => by rw [e.2]⟩
  next h => simp [h]

theorem fitResult_error_iff (c : Config) (r : Int) (e : Raise) : fitResult c r = .error e ↔ ¬ FitsW c.W r ∧ e = .overflow := by
  unfold fitResult
  split <;> simp_all [eq_comm]

theorem truth_fits (W : Nat) (b : Bool) (h : 18 ≤ W) : FitsW W (truth b) := by
  have : 2 ^ 1 ≤ halfRange W := Nat.pow_le_pow_right (by decide) (by omega)
  cases b <;> simp only [truth] <;> constructor <;> simp <;> omega

/-- What an I4 step stages. -/
theorem stageI4_ok_iff (s t : State) (m1 m2 m3 : Mode) (result : Int → Int → Except Raise Int) :
    stageI4 s m1 m2 m3 result = .ok t ↔
      ∃ a b d v, IsOperand s 1 m1 a ∧ IsOperand s 2 m2 b ∧ s.cell (s.pc + 3) = some d ∧ result a b = .ok v ∧
        InMemory s d ∧ t = (s.withCell d v).withPc (s.pc + 4) := by
  simp only [← srcOperand_ok_iff, ← destOperand_ok_iff s 3 _ m3]
  unfold stageI4
  constructor
  · intro h
    split at h
    · cases h
    next a ha =>
      split at h
      · cases h
      next b hb =>
        split at h
        · cases h
        next d hd =>
          split at h
          · cases h
          next v hv =>
            split at h
            · cases h
            next u hu =>
              obtain ⟨hin, rfl⟩ := (memWrite_ok_iff s u d v).mp hu
              exact ⟨a, b, d, v, ha, hb, hd, hv, hin, by cases h; rfl⟩
  · rintro ⟨a, b, d, v, ha, hb, hd, hv, hin, rfl⟩
    simp [ha, hb, hd, hv, (memWrite_ok_iff s _ d v).mpr ⟨hin, rfl⟩]

/-- What an I4 step raises: the first check of 60_exceptions R210 that fails. -/
theorem stageI4_error_iff (s : State) (m1 m2 m3 : Mode) (result : Int → Int → Except Raise Int) (r : Raise) :
    stageI4 s m1 m2 m3 result = .error r ↔
      OperandFault s 1 m1 r ∨
      (∃ a, IsOperand s 1 m1 a ∧
        (OperandFault s 2 m2 r ∨
        (∃ b, IsOperand s 2 m2 b ∧
          ((s.cell (s.pc + 3) = none ∧ r = .outOfBounds .param (s.pc + 3)) ∨
          (∃ d, s.cell (s.pc + 3) = some d ∧
            (result a b = .error r ∨
            (∃ v, result a b = .ok v ∧ ¬ InMemory s d ∧ r = .outOfBounds .write d))))))) := by
  simp only [← srcOperand_ok_iff, ← srcOperand_error_iff, ← destOperand_ok_iff s 3 _ m3, ← destOperand_error_iff s 3 m3]
  unfold stageI4
  cases srcOperand s 1 m1 with
  | error r1 => simp
  | ok a =>
    cases srcOperand s 2 m2 with
    | error r2 => simp
    | ok b =>
      cases destOperand s 3 m3 with
      | error r3 => simp
      | ok d =>
        cases hv : result a b with
        | error r4 => simp [hv]
        | ok v =>
          by_cases hin : InMemory s d
          · simp [hv, memWrite_inside s d v hin, hin]
          · simp [hv, memWrite_outside s d v hin, hin, eq_comm]

/-- What a conditional jump stages. -/
theorem stageI3_ok_iff (s t : State) (m1 m2 : Mode) (taken : Int → Bool) :
    stageI3 s m1 m2 taken = .ok t ↔
      ∃ c target, IsOperand s 1 m1 c ∧ IsOperand s 2 m2 target ∧ t = s.withPc (if taken c then target else s.pc + 3) := by
  simp only [← srcOperand_ok_iff]
  unfold stageI3
  cases srcOperand s 1 m1 with
  | error r => simp
  | ok c =>
    cases srcOperand s 2 m2 with
    | error r => simp
    | ok target => simp [eq_comm (a := t)]

/-- What a conditional jump raises. -/
theorem stageI3_error_iff (s : State) (m1 m2 : Mode) (taken : Int → Bool) (r : Raise) :
    stageI3 s m1 m2 taken = .error r ↔
      OperandFault s 1 m1 r ∨ ∃ c, IsOperand s 1 m1 c ∧ OperandFault s 2 m2 r := by
  simp only [← srcOperand_ok_iff, ← srcOperand_error_iff]
  unfold stageI3
  cases srcOperand s 1 m1 with
  | error r => simp
  | ok c => cases srcOperand s 2 m2 <;> simp

/-- What STORE stages. -/
theorem stageStore_ok_iff (s t : State) (m1 : Mode) :
    stageStore s m1 = .ok t ↔
      ∃ d, s.cell (s.pc + 1) = some d ∧ s.inValid = true ∧ InMemory s d ∧
        t = (s.withCell d s.inLatch).consumeInput.withPc (s.pc + 2) := by
  simp only [← destOperand_ok_iff s 1 _ m1]
  unfold stageStore
  cases destOperand s 1 m1 with
  | error r => simp
  | ok d =>
    cases hv : s.inValid with
    | false => simp
    | true =>
      by_cases hin : InMemory s d
      · simp [memWrite_inside s d s.inLatch hin, hin, eq_comm (a := t)]
      · simp [memWrite_outside s d s.inLatch hin, hin]

/-- What STORE raises. -/
theorem stageStore_error_iff (s : State) (m1 : Mode) (r : Raise) :
    stageStore s m1 = .error r ↔
      (s.cell (s.pc + 1) = none ∧ r = .outOfBounds .param (s.pc + 1)) ∨
      ∃ d, s.cell (s.pc + 1) = some d ∧
        ((s.inValid = false ∧ r = .inputUndefined) ∨ (s.inValid = true ∧ ¬ InMemory s d ∧ r = .outOfBounds .write d)) := by
  simp only [← destOperand_ok_iff s 1 _ m1, ← destOperand_error_iff s 1 m1]
  unfold stageStore
  cases destOperand s 1 m1 with
  | error r => simp
  | ok d =>
    cases hv : s.inValid with
    | false => simp [eq_comm]
    | true =>
      by_cases hin : InMemory s d
      · simp [memWrite_inside s d s.inLatch hin, hin]
      · simp [memWrite_outside s d s.inLatch hin, hin, eq_comm]

/-- What LOAD stages. -/
theorem stageLoad_ok_iff (s t : State) (m1 : Mode) :
    stageLoad s m1 = .ok t ↔ ∃ v, IsOperand s 1 m1 v ∧ t = (s.withOutput v).withPc (s.pc + 2) := by
  simp only [← srcOperand_ok_iff]
  unfold stageLoad
  cases srcOperand s 1 m1 <;> simp [eq_comm (a := t)]

/-- What LOAD raises. -/
theorem stageLoad_error_iff (s : State) (m1 : Mode) (r : Raise) : stageLoad s m1 = .error r ↔ OperandFault s 1 m1 r := by
  simp only [← srcOperand_error_iff]
  unfold stageLoad
  cases srcOperand s 1 m1 <;> simp

end Sys2Proof.Machine
end

