-- ==== Sys2Proof/Laws/Exec.lean ====
section
/-!
SUPPORT. Everything an instruction can do to the state, said once.
-/

namespace Sys2Proof.Machine

/-- The instructions that write a result to the destination named by parameter 3. -/
inductive IsI4 : Instr → Mode → Mode → Mode → Prop where
  | add (m1 m2 m3 : Mode) : IsI4 (.add m1 m2 m3) m1 m2 m3
  | mul (m1 m2 m3 : Mode) : IsI4 (.mul m1 m2 m3) m1 m2 m3
  | lt (m1 m2 m3 : Mode) : IsI4 (.lt m1 m2 m3) m1 m2 m3
  | eq (m1 m2 m3 : Mode) : IsI4 (.eq m1 m2 m3) m1 m2 m3

/-- What executing an instruction in `s` can lead to. -/
inductive Effect (s : State) : Instr → State → Prop where
  | raised (i : Instr) (r : Raise) : i ≠ .halt → ExecRaise s r → Effect s i (enterFault s r)
  | wrote (i : Instr) (m1 m2 m3 : Mode) (d v : Int) : IsI4 i m1 m2 m3 → s.cell (s.pc + 3) = some d → InMemory s d →
      (18 ≤ s.cfg.W → FitsW s.cfg.W v) → Effect s i ((s.withCell d v).withPc (s.pc + 4))
  | stored (m1 : Mode) (d : Int) : s.cell (s.pc + 1) = some d → s.inValid = true → InMemory s d →
      Effect s (.store m1) ((s.withCell d s.inLatch).consumeInput.withPc (s.pc + 2))
  | loaded (m1 : Mode) (v : Int) : IsOperand s 1 m1 v → Effect s (.load m1) ((s.withOutput v).withPc (s.pc + 2))
  | jumped (i : Instr) (m1 m2 : Mode) (p : Int) : i = .jit m1 m2 ∨ i = .jif m1 m2 → p = s.pc + 3 ∨ IsOperand s 2 m2 p →
      Effect s i (s.withPc p)
  | halted : Effect s .halt s.halt

theorem stageI4_effect (s t : State) (i : Instr) (m1 m2 m3 : Mode) (result : Int → Int → Except Raise Int)
    (hi : IsI4 i m1 m2 m3) (hok : ∀ a b v, result a b = .ok v → 18 ≤ s.cfg.W → FitsW s.cfg.W v)
    (herr : ∀ a b r, result a b = .error r → r = .overflow)
    (h : commit s (stageI4 s m1 m2 m3 result) = .next t) : Effect s i t := by
  have hne : i ≠ .halt := by rintro rfl; cases hi
  rcases (commit_eq_next_iff s t _).mp h with h | ⟨r, hr, rfl⟩
  · obtain ⟨a, b, d, v, -, -, hd, hv, hin, rfl⟩ := (stageI4_ok_iff s t m1 m2 m3 result).mp h
    exact .wrote i m1 m2 m3 d v hi hd hin (hok a b v hv)
  · refine .raised i r hne ?_
    rcases (stageI4_error_iff s m1 m2 m3 result r).mp hr with h1 | ⟨a, -, h2 | ⟨b, -, ⟨-, rfl⟩ | ⟨d, hd, h4 | ⟨v, -, -, rfl⟩⟩⟩⟩
    · exact h1.execRaise (by decide) (by decide)
    · exact h2.execRaise (by decide) (by decide)
    · exact .param 3 (by decide) (by decide)
    · rw [herr a b r h4]
      exact .overflow
    · exact .named _ _ _ (by decide) hd

theorem fitResult_fits (c : Config) (r v : Int) (h : fitResult c r = .ok v) : FitsW c.W v := by
  obtain ⟨h1, rfl⟩ := (fitResult_ok_iff c r v).mp h
  exact h1

theorem stageI3_effect (s t : State) (i : Instr) (m1 m2 : Mode) (taken : Int → Bool) (hi : i = .jit m1 m2 ∨ i = .jif m1 m2)
    (h : commit s (stageI3 s m1 m2 taken) = .next t) : Effect s i t := by
  have hne : i ≠ .halt := by rintro rfl; simp at hi
  rcases (commit_eq_next_iff s t _).mp h with h | ⟨r, hr, rfl⟩
  · obtain ⟨c, target, -, ht, rfl⟩ := (stageI3_ok_iff s t m1 m2 taken).mp h
    refine .jumped i m1 m2 _ hi ?_
    split
    · exact .inr ht
    · exact .inl rfl
  · refine .raised i r hne ?_
    rcases (stageI3_error_iff s m1 m2 taken r).mp hr with h1 | ⟨c, -, h2⟩
    · exact h1.execRaise (by decide) (by decide)
    · exact h2.execRaise (by decide) (by decide)

/-- Executing an instruction has one of the effects of `Effect` and no other. -/
theorem exec_effect (i : Instr) (s t : State) (h : exec i s = .next t) : Effect s i t := by
  cases i with
  | add m1 m2 m3 =>
    exact stageI4_effect s t _ m1 m2 m3 _ (.add m1 m2 m3) (fun a b v hv _ => fitResult_fits _ _ _ hv)
      (fun a b r hr => ((fitResult_error_iff _ _ _).mp hr).2) h
  | mul m1 m2 m3 =>
    exact stageI4_effect s t _ m1 m2 m3 _ (.mul m1 m2 m3) (fun a b v hv _ => fitResult_fits _ _ _ hv)
      (fun a b r hr => ((fitResult_error_iff _ _ _).mp hr).2) h
  | lt m1 m2 m3 =>
    exact stageI4_effect s t _ m1 m2 m3 _ (.lt m1 m2 m3) (fun a b v hv hW => by cases hv; exact truth_fits _ _ hW)
      (fun a b r hr => by cases hr) h
  | eq m1 m2 m3 =>
    exact stageI4_effect s t _ m1 m2 m3 _ (.eq m1 m2 m3) (fun a b v hv hW => by cases hv; exact truth_fits _ _ hW)
      (fun a b r hr => by cases hr) h
  | jit m1 m2 => exact stageI3_effect s t _ m1 m2 _ (.inl rfl) h
  | jif m1 m2 => exact stageI3_effect s t _ m1 m2 _ (.inr rfl) h
  | store m1 =>
    rcases (commit_eq_next_iff s t (stageStore s m1)).mp h with h | ⟨r, hr, rfl⟩
    · obtain ⟨d, hd, hv, hin, rfl⟩ := (stageStore_ok_iff s t m1).mp h
      exact .stored m1 d hd hv hin
    · refine .raised _ r (by simp) ?_
      rcases (stageStore_error_iff s m1 r).mp hr with ⟨-, rfl⟩ | ⟨d, hd, ⟨-, rfl⟩ | ⟨-, -, rfl⟩⟩
      · exact .param 1 (by decide) (by decide)
      · exact .inputUndefined
      · exact .named _ _ _ (by decide) hd
  | load m1 =>
    rcases (commit_eq_next_iff s t (stageLoad s m1)).mp h with h | ⟨r, hr, rfl⟩
    · obtain ⟨v, hv, rfl⟩ := (stageLoad_ok_iff s t m1).mp h
      exact .loaded m1 v hv
    · exact .raised _ r (by simp) (((stageLoad_error_iff s m1 r).mp hr).execRaise (by decide) (by decide))
  | halt =>
    cases h
    exact .halted

/-- Every instruction answers a next state in every state: its own effect, or fault entry. -/
theorem exec_total (i : Instr) (s : State) : ∃ t, exec i s = .next t := by
  have hc : ∀ e : Except Raise State, ∃ t, commit s e = .next t := fun e => by cases e <;> exact ⟨_, rfl⟩
  cases i with
  | halt => exact ⟨s.halt, rfl⟩
  | _ => exact hc _

end Sys2Proof.Machine
end

