-- ==== Sys2Proof/Laws/PerInstr.lean ====
section
/-!
SUPPORT. Statements about the instruction as syntax, one lemma per constructor: the canonical word of an instruction is a
five-digit word of its own row (30_encoding R84), and has one mode digit per parameter.
-/

namespace Sys2Proof.Laws.CanonicalWord

/-- The canonical word lies in `[0, 99999]`, its low two digits are the instruction's code, and the instruction has one mode
for each of its `L - 1` parameters. -/
def Statement (i : Instr) : Prop :=
  encodeNat i ≤ 99999 ∧ encodeNat i % 100 = i.op.code ∧ i.modes.length + 1 = i.length

theorem add (m1 m2 m3 : Mode) : Statement (.add m1 m2 m3) := by unfold Statement; cases m1 <;> cases m2 <;> cases m3 <;> decide
theorem mul (m1 m2 m3 : Mode) : Statement (.mul m1 m2 m3) := by unfold Statement; cases m1 <;> cases m2 <;> cases m3 <;> decide
theorem store (m1 : Mode) : Statement (.store m1) := by unfold Statement; cases m1 <;> decide
theorem load (m1 : Mode) : Statement (.load m1) := by unfold Statement; cases m1 <;> decide
theorem jit (m1 m2 : Mode) : Statement (.jit m1 m2) := by unfold Statement; cases m1 <;> cases m2 <;> decide
theorem jif (m1 m2 : Mode) : Statement (.jif m1 m2) := by unfold Statement; cases m1 <;> cases m2 <;> decide
theorem lt (m1 m2 m3 : Mode) : Statement (.lt m1 m2 m3) := by unfold Statement; cases m1 <;> cases m2 <;> cases m3 <;> decide
theorem eq (m1 m2 m3 : Mode) : Statement (.eq m1 m2 m3) := by unfold Statement; cases m1 <;> cases m2 <;> cases m3 <;> decide
theorem halt : Statement .halt := by unfold Statement; decide

end Sys2Proof.Laws.CanonicalWord
end

