-- ==== Sys2Proof/Laws/Step.lean ====
section
/-!
SUPPORT. Everything a step can do, said once.
-/

namespace Sys2Proof.Machine

theorem fetchDecode_ok_iff (s : State) (i : Instr) : fetchDecode s = .ok i ↔ Fetches s i := by
  unfold fetchDecode Fetches
  cases h : memRead s s.pc .fetch with
  | error r => simp [((memRead_error_iff s s.pc .fetch r).mp h).1]
  | ok w =>
    rw [(memRead_ok_iff s s.pc w .fetch).mp h]
    cases hd : decode w <;> simp [hd]

/-- Fetch and decode raise the fault of a PC that names no cell, or the decoder's. -/
theorem fetchDecode_error_iff (s : State) (r : Raise) :
    fetchDecode s = .error r ↔
      (s.cell s.pc = none ∧ r = .outOfBounds .fetch s.pc) ∨
      ∃ w e, s.cell s.pc = some w ∧ decode w = .error e ∧ r = raiseOfDecode e := by
  unfold fetchDecode
  cases h : memRead s s.pc .fetch with
  | error r' =>
    obtain ⟨h1, rfl⟩ := (memRead_error_iff s s.pc .fetch r').mp h
    simp [h1, eq_comm]
  | ok w =>
    rw [(memRead_ok_iff s s.pc w .fetch).mp h]
    cases hd : decode w <;> simp [hd, eq_comm]

/-- The steps of a loaded core, by FSM and by what is fetched. -/
theorem step_running (s : State) (i : Instr) (hl : s.len ≠ 0) (hf : s.fsm = .running) (hi : fetchDecode s = .ok i) :
    step s = exec i s := by
  simp [step, stepOnce, runningStep, hl, hf, hi]

theorem step_running_error (s : State) (r : Raise) (hl : s.len ≠ 0) (hf : s.fsm = .running) (hr : fetchDecode s = .error r) :
    step s = .next (enterFault s r) := by
  simp [step, stepOnce, runningStep, hl, hf, hr]

theorem step_not_running (s : State) (hl : s.len ≠ 0) (hf : s.fsm ≠ .running) : step s = .next s := by
  cases h : s.fsm <;> simp_all [step, stepOnce]

/-- A loaded core always answers a next state. -/
theorem step_total (s : State) (hl : s.len ≠ 0) : ∃ t, step s = .next t := by
  by_cases hf : s.fsm = .running
  · cases h : fetchDecode s with
    | error r => exact ⟨_, step_running_error s r hl hf h⟩
    | ok i => exact step_running s i hl hf h ▸ exec_total i s
  · exact ⟨s, step_not_running s hl hf⟩

/-- What a step to a next state was: no change out of RUNNING, the fault of fetch or decode, or the effect of the decoded
instruction. -/
theorem step_cases (s t : State) (h : step s = .next t) :
    s.len ≠ 0 ∧
      ((s.fsm ≠ .running ∧ t = s) ∨
       (s.fsm = .running ∧ ∃ r, fetchDecode s = .error r ∧ t = enterFault s r) ∨
       (s.fsm = .running ∧ ∃ i, fetchDecode s = .ok i ∧ exec i s = .next t ∧ Effect s i t)) := by
  have hl : s.len ≠ 0 := fun h0 => by simp [step, stepOnce, h0] at h
  refine ⟨hl, ?_⟩
  by_cases hf : s.fsm = .running
  · cases hd : fetchDecode s with
    | error r =>
      rw [step_running_error s r hl hf hd] at h
      cases h
      exact .inr (.inl ⟨hf, r, rfl, rfl⟩)
    | ok i =>
      rw [step_running s i hl hf hd] at h
      exact .inr (.inr ⟨hf, i, rfl, h, exec_effect i s t h⟩)
  · rw [step_not_running s hl hf] at h
    cases h
    exact .inl ⟨hf, rfl⟩

end Sys2Proof.Machine
end

