-- ==== Sys2Proof/Tests/Slice0.lean ====
section
/-!
SUPPORT. The model's own tests. Expected results are those of spec/95_test_vectors.md, whose vector is named, or worked by hand
from the rule named. Then one witness per statement with hypotheses: a concrete state and operands that meet them, at the
boundary of each clause.
-/

namespace Sys2Proof.Tests

open Sys2Proof Sys2Proof.Machine

/-! ### Helpers -/

/-- A core just loaded with a program. -/
def load (program : List Int) : State := State.reset.loadProgram program

/-- A core just loaded, its input set to `v`. -/
def loadIn (v : Int) (program : List Int) : State := { load program with inLatch := v, inValid := true }

/-- The next state of an outcome, if it is one. -/
def nextOf : Host.Outcome State Fault Refusal → Option State
  | .next t => some t
  | .fault _ => none
  | .refused _ => none

/-- The state after one step, if it is a next state. -/
def after (s : State) : Option State := nextOf (step s)

/-- The record of a fault, for an expected value. -/
def record (code : FaultCode) (pc word addr : Int) (kind : AccessKind) : FaultRecord :=
  { FaultRecord.clear with code := code, pc := pc, word := word, addr := addr, kind := kind }

/-! ### Well-formedness: an ill-formed term for each check -/

theorem test_placed_too_few_params : ¬ Placed.WellFormed 64 ⟨.load .position, []⟩ := by decide
theorem test_placed_param_too_wide : ¬ Placed.WellFormed 18 ⟨.load .immediate, [131072]⟩ := by decide
theorem test_placed_param_fits : Placed.WellFormed 18 ⟨.load .immediate, [-131072]⟩ := by decide
theorem test_admits_not_empty : ¬ Config.standard.Admits [] := by decide
theorem test_admits_fits : ¬ Config.standard.Admits [9223372036854775808] := by decide
theorem test_admits_capacity : ¬ Config.Admits { W := 64, memCap := 2 } [1, 2, 3] := by decide
theorem test_config_width : ¬ Config.Valid { W := 17, memCap := 1 } := by decide
theorem test_config_capacity_low : ¬ Config.Valid { W := 18, memCap := 0 } := by decide
theorem test_config_capacity_high : ¬ Config.Valid { W := 18, memCap := 131069 } := by decide
theorem test_config_standard : Config.standard.Valid := by decide
theorem test_memory_wf_rising : ¬ Memory.wf [(1, 5), (1, 6)] := by decide
theorem test_memory_wf_listed : ¬ Memory.wf [(1, 0)] := by decide

/-! ### Decoding: words written out digit by digit from 30_encoding R71, R73 -/

/-- DC1, 0 0 0 0 1. -/
theorem test_decode_add : decode 1 = .ok (.add .position .position .position) := by decide
/-- The example of R71, 0 1 0 0 2. -/
theorem test_decode_mul : decode 1002 = .ok (.mul .position .immediate .position) := by decide
/-- DC4, 0 0 1 0 3. -/
theorem test_decode_store : decode 103 = .ok (.store .immediate) := by decide
/-- DC5, 0 2 0 0 4: digit 3 ignored. -/
theorem test_decode_load : decode 2004 = .ok (.load .position) := by decide
/-- DC6, 2 1 1 0 5: digit 4 ignored. -/
theorem test_decode_jit : decode 21105 = .ok (.jit .immediate .immediate) := by decide
/-- 0 1 0 0 6: parameter 1 position, parameter 2 immediate (R71). -/
theorem test_decode_jif : decode 1006 = .ok (.jif .position .immediate) := by decide
/-- 1 0 1 0 7: parameters 1 and 3 immediate, parameter 2 position (R71). -/
theorem test_decode_lt : decode 10107 = .ok (.lt .immediate .position .immediate) := by decide
/-- 0 0 0 0 8. -/
theorem test_decode_eq : decode 8 = .ok (.eq .position .position .position) := by decide
/-- DC7, 9 2 1 9 9: digits 2, 3 and 4 ignored. -/
theorem test_decode_halt : decode 92199 = .ok .halt := by decide
/-- DC8. -/
theorem test_decode_unmapped :
    [0, 9, 98, 100].map decode = List.replicate 4 (.error .invalidOpcode) := by decide
/-- DC9, DC10. -/
theorem test_decode_range :
    [-1, -99, 100001, 100099].map decode = List.replicate 4 (.error .invalidOpcode) := by decide
/-- DC12. -/
theorem test_decode_destination_digit : decode 20001 = .error (.invalidAddressingMode 3 2) := by decide
/-- DC13. -/
theorem test_decode_lowest_parameter : decode 2201 = .error (.invalidAddressingMode 1 2) := by decide
/-- DC14. -/
theorem test_decode_digit_nine : decode 9005 = .error (.invalidAddressingMode 2 9) := by decide
/-- R85: `ADD [9], #-1, [9]` assembles to `1001, 9, -1, 9`. -/
theorem test_encode_placed :
    Placed.cells ⟨.add .position .immediate .position, [9, -1, 9]⟩ = [1001, 9, -1, 9] := by decide
/-- The row LOAD of the opcode table, all its other digits 0. -/
theorem test_decode_table_word : decodeTableWord 8 4 = some (.load .position) := by decide
/-- A placed word is what the first step after reset runs: LOAD [0] outputs the word itself. -/
theorem test_withFetchWord :
    (after (State.reset.withFetchWord 8 4)).map (fun t => (t.outLatch, t.outValid, t.pc)) = some (4, true, 2) := by decide

/-! ### Single steps -/

/-- AR3. -/
theorem test_add_overflow :
    (after (load [1101, 9223372036854775807, 1, 5, 99, 0])).map (fun t => (t.fsm, t.fault)) =
      some (.faulted, record .overflow 0 1101 0 .fetch) := by decide
/-- S6, 99 * 99. -/
theorem test_mul_square :
    (after (load [2, 4, 4, 5, 99, 0])).map State.cells = some [2, 4, 4, 5, 99, 9801] := by decide
/-- AR8. -/
theorem test_mul_overflow :
    (after (load [1102, -9223372036854775808, -1, 5, 99, 0])).map (fun t => t.fault.code) = some .overflow := by decide
/-- IO2: mode digit 1 of the destination is not applied; the input is consumed. -/
theorem test_store :
    (after (loadIn 7 [103, 3, 99, 0])).map (fun t => (t.cells, t.inValid, t.pc)) = some ([103, 3, 99, 7], false, 2) := by
  decide
/-- IO6: InputUndefined before WRITE. -/
theorem test_store_no_input :
    (after (load [3, 9, 99])).map (fun t => (t.fsm, t.fault)) = some (.faulted, record .inputUndefined 0 3 0 .fetch) := by
  decide
/-- IO8: an immediate LOAD outputs the literal. -/
theorem test_load_immediate :
    (after (load [104, 42, 99])).map (fun t => (t.getOutput, t.pc)) = some (some 42, 2) := by decide
/-- IO9. -/
theorem test_load_position : (after (load [4, 2, 99])).map State.getOutput = some (some 99) := by decide
/-- BR3: a negative condition is true. -/
theorem test_jit_negative : (after (load [1105, -1, 4, 0, 99])).map State.pc = some 4 := by decide
/-- BR10: the target is resolved although the jump is not taken. -/
theorem test_jit_target_resolved :
    (after (load [105, 0, 9, 99])).map State.fault = some (record .outOfBounds 0 105 9 .operand) := by decide
/-- BR4. -/
theorem test_jif_taken : (after (load [1106, 0, 4, 0, 99])).map State.pc = some 4 := by decide
/-- BR5. -/
theorem test_jif_falls_through : (after (load [1106, 1, 4, 99])).map State.pc = some 3 := by decide
/-- CM4. -/
theorem test_lt_extremes :
    (after (load [1107, -9223372036854775808, 9223372036854775807, 5, 99, 0])).map (fun t => t.cell 5) =
      some (some 1) := by decide
/-- CM9. -/
theorem test_lt_write_outside :
    (after (load [1107, 1, 2, -5, 99])).map State.fault = some (record .outOfBounds 0 1107 (-5) .write) := by decide
/-- CM8. -/
theorem test_eq_same_cell : (after (load [8, 0, 0, 5, 99, 7])).map State.cells = some [8, 0, 0, 5, 99, 1] := by decide
/-- CM7. -/
theorem test_eq_negation : (after (load [1108, 8, -8, 5, 99, 3])).map (fun t => t.cell 5) = some (some 0) := by decide
/-- HT1. -/
theorem test_halt : (after (load [99])).map (fun t => (t.fsm, t.pc, t.cells)) = some (.halted, 0, [99]) := by decide
/-- AR12, R63: an ADD that writes its own word. -/
theorem test_add_own_word :
    (after (load [1101, 1, 1, 0, 99])).map (fun t => (t.cells, t.pc)) = some ([2, 1, 1, 0, 99], 4) := by decide
/-- AR16: parameter 1 is resolved first, then parameter 2's cell is missing. -/
theorem test_param_missing :
    (after (load [1, 0])).map State.fault = some (record .outOfBounds 0 1 2 .param) := by decide
/-- DC21: decode before resolve. -/
theorem test_decode_before_resolve :
    (after (load [201])).map State.fault =
      some { record .invalidAddressingMode 0 201 0 .fetch with param := 1, digit := 2 } := by decide
/-- BR9, second step: a target below 0 faults at the fetch. -/
theorem test_fetch_outside :
    (after { load [1105, 1, -1] with pc := -1 }).map (fun t => (t.fsm, t.fault, t.pc)) =
      some (.faulted, record .outOfBounds (-1) 0 (-1) .fetch, -1) := by decide

/-! ### Host -/

/-- LD3. -/
theorem test_parse_leading_zeros :
    parseProgram ['0', '0', '7', ',', '-', '0', ',', '5'] = some [7, 0, 5] := by decide
/-- LD1, LD2: trailing line feed, one trailing comma. -/
theorem test_parse_trailing : parseProgram ['9', ',', '-', '1', '2', ',', '\n'] = some [9, -12] := by decide
/-- LD5: no `+`, no space inside, no empty element. -/
theorem test_parse_refused :
    [['1', ',', ' ', '2'], ['+', '1'], ['1', ',', ',', '2'], ['1', ';', '2']].map parseProgram = List.replicate 4 none := by
  decide
/-- LD4. -/
theorem test_load_blank : State.reset.loadText [' ', ' ', '\n'] = .error .noInteger := by decide
/-- LD6. -/
theorem test_load_too_wide :
    State.reset.loadText ['9', '2', '2', '3', '3', '7', '2', '0', '3', '6', '8', '5', '4', '7', '7', '5', '8', '0', '8'] =
      .error .doesNotFit := by decide
/-- R245. -/
theorem test_view : (load [7, 0, -15]).viewText = ['7', ',', '0', ',', '-', '1', '5'] := by decide
/-- P4's patch line: labels name the address of the next cell. -/
theorem test_assemble_label :
    assemble [.add (.imm 98) (.imm 1) ⟨.position, .label "patched"⟩, .define "patched", .word [.literal 1]] =
      some [1101, 98, 1, 4, 1] := by decide
/-- R86: `NOP` is `1106, 1, 0`. -/
theorem test_assemble_nop : assemble [.nop] = some [1106, 1, 0] := by decide

/-! ### Witnesses: states and operands that meet the hypotheses of each statement -/

theorem next_of {o : Host.Outcome State Fault Refusal} {p : State → Bool} (h : (nextOf o).any p = true) :
    ∃ t, o = .next t ∧ p t = true := by
  cases o <;> simp_all [nextOf]

theorem imm_operand {s : State} {k v : Int} (h : s.cell (s.pc + k) = some v) : IsOperand s k .immediate v := ⟨v, h, rfl⟩

theorem pos_operand {s : State} {k v : Int} (raw : Int) (h : s.cell (s.pc + k) = some raw) (hv : s.cell raw = some v) :
    IsOperand s k .position v := ⟨raw, h, hv⟩

theorem pos_fault {s : State} {k : Int} (raw : Int) (h : s.cell (s.pc + k) = some raw) (hv : s.cell raw = none) :
    OperandFault s k .position (.outOfBounds .operand raw) := .inr ⟨rfl, raw, h, hv, rfl⟩

/-- Both directions of DecodeIsCanonicalWordPlusIgnoredDigits, at the most ignored digits and at none. -/
theorem witness_decodeCanonical :
    (decode 99999 = .ok .halt ∧ 999 < 10 ^ (4 - Instr.halt.length) ∧ 99999 = encode .halt + 10 ^ (1 + 1) * 999) ∧
    (decode 11108 = .ok (.eq .immediate .immediate .immediate) ∧
      11108 = encode (.eq .immediate .immediate .immediate) + 10 ^ 5 * 0) := by decide

theorem witness_invalidOpcode :
    decode (-1) = .error .invalidOpcode ∧ decode 100000 = .error .invalidOpcode ∧ decode 0 = .error .invalidOpcode ∧
    decode 9 = .error .invalidOpcode ∧ decode 98 = .error .invalidOpcode ∧ decode 99999 ≠ .error .invalidOpcode := by decide

theorem witness_invalidMode_lowest : digit 22201 (1 + 1) = 2 ∧ decode 22201 = .error (.invalidAddressingMode 1 2) := by decide
theorem witness_invalidMode_highest :
    digit 91101 (3 + 1) = 9 ∧ opOfCode (91101 % 100) = some .add ∧ decode 91101 = .error (.invalidAddressingMode 3 9) := by
  decide

theorem witness_destinationMode_raw :
    (load [1101, 1, 2, -5]).cell ((load [1101, 1, 2, -5]).pc + 3) = some (-5) := by decide
theorem witness_destinationMode_checked :
    (20001 ≤ 99999 ∧ opOfCode (20001 % 100) = some .add ∧ Op.destParam .add = some 3 ∧ 2 ≤ digit 20001 (3 + 1)) ∧
    (903 ≤ 99999 ∧ opOfCode (903 % 100) = some .store ∧ Op.destParam .store = some 1 ∧ 2 ≤ digit 903 (1 + 1)) := by decide

theorem witness_placedRead :
    Placed.WellFormed 64 ⟨.jit .immediate .position, [-9223372036854775808, 9223372036854775807]⟩ ∧
    (List.range 3).map (fun k => (load [105, -9223372036854775808, 9223372036854775807]).cell (k : Int)) =
      (Placed.cells ⟨.jit .immediate .position, [-9223372036854775808, 9223372036854775807]⟩).map some := by decide

/-- R50's clauses at -1, 0, LEN - 1 and LEN. -/
theorem witness_memoryRead :
    (load [99, 5]).len = 2 ∧
    [-1, 0, 1, 2].map (fun a => memRead (load [99, 5]) a .operand) =
      [.error (.outOfBounds .operand (-1)), .ok 99, .ok 5, .error (.outOfBounds .operand 2)] := by decide

theorem witness_memoryWrite :
    (load [99, 5]).mem.wf ∧ InMemory (load [99, 5]) 0 ∧ InMemory (load [99, 5]) 1 ∧ ¬ InMemory (load [99, 5]) 2 ∧
    ¬ InMemory (load [99, 5]) (-1) := by
  unfold InMemory; decide

/-- R79's clauses: a raw value that names a cell (LEN - 1), one that does not (LEN), and no parameter cell. -/
theorem witness_resolver :
    (load [1, 3, 4, 99]).cell 1 = some 3 ∧ (load [1, 3, 4, 99]).cell 3 = some 99 ∧ (load [1, 3, 4, 99]).cell 2 = some 4 ∧
    (load [1, 3, 4, 99]).cell 4 = none := by decide

theorem witness_comparator : (18 : Nat) ≤ 18 ∧ (-1 : Int) < 0 ∧ (3 : Int) = 3 ∧ cmpLt (-1) 0 = 1 ∧ cmpLt 3 3 = 0 := by decide

/-- ADD and MUL complete at the ends of the range, LT and EQ on their extremes; each destination is the last cell. -/
theorem witness_i4_completes :
    (∀ p ∈ [[1101, 9223372036854775806, 1, 3], [1102, -9223372036854775808, 1, 3], [1107, -9223372036854775808, 0, 3],
        [1108, 3, 3, 3]],
      (load p).mem.wf ∧ (load p).cell 3 = some 3 ∧ (load p).len = 4) ∧
    IsOperand (load [1101, 9223372036854775806, 1, 3]) 1 .immediate 9223372036854775806 ∧
    IsOperand (load [1101, 9223372036854775806, 1, 3]) 2 .immediate 1 ∧
    IsOperand (load [2, 3, 0, 3]) 1 .position 3 ∧ IsOperand (load [2, 3, 0, 3]) 2 .position 2 ∧
    FitsW 64 (9223372036854775806 + 1) ∧ FitsW 64 (-9223372036854775808 * 1) ∧ InMemory (load [2, 3, 0, 3]) 3 :=
  ⟨by decide, imm_operand (by decide), imm_operand (by decide), pos_operand 3 (by decide) (by decide),
    pos_operand 0 (by decide) (by decide), by decide, by decide, by unfold InMemory; decide⟩

theorem witness_operand1_faults :
    OperandFault (load [1]) 1 .position (.outOfBounds .param 1) ∧
    OperandFault (load [1, 4, 0, 0]) 1 .position (.outOfBounds .operand 4) ∧
    OperandFault (load [1, -1, 0, 0]) 1 .position (.outOfBounds .operand (-1)) :=
  ⟨.inl ⟨by decide, rfl⟩, pos_fault 4 (by decide) (by decide), pos_fault (-1) (by decide) (by decide)⟩

theorem witness_operand2_faults :
    IsOperand (load [1101, 5]) 1 .immediate 5 ∧ OperandFault (load [1101, 5]) 2 .immediate (.outOfBounds .param 2) ∧
    IsOperand (load [101, 5, 9]) 1 .immediate 5 ∧ OperandFault (load [101, 5, 9]) 2 .position (.outOfBounds .operand 9) :=
  ⟨imm_operand (by decide), .inl ⟨by decide, rfl⟩, imm_operand (by decide), pos_fault 9 (by decide) (by decide)⟩

theorem witness_dest_param_faults :
    IsOperand (load [1101, 5, 6]) 1 .immediate 5 ∧ IsOperand (load [1101, 5, 6]) 2 .immediate 6 ∧
    (load [1101, 5, 6]).cell 3 = none := ⟨imm_operand (by decide), imm_operand (by decide), by decide⟩

theorem witness_result_faults :
    IsOperand (load [1101, 9223372036854775807, 1, 0]) 1 .immediate 9223372036854775807 ∧
    IsOperand (load [1101, 9223372036854775807, 1, 0]) 2 .immediate 1 ∧
    (load [1101, 9223372036854775807, 1, 0]).cell 3 = some 0 ∧
    ¬ FitsW 64 (9223372036854775807 + 1) ∧ ¬ FitsW 64 (-9223372036854775808 * -1) :=
  ⟨imm_operand (by decide), imm_operand (by decide), by decide, by decide, by decide⟩

/-- The destination LEN, and a negative one. -/
theorem witness_write_faults :
    (load [1101, 1, 1, 4]).cell 3 = some 4 ∧ ¬ InMemory (load [1101, 1, 1, 4]) 4 ∧
    (load [1101, 1, 1, -1]).cell 3 = some (-1) ∧ ¬ InMemory (load [1101, 1, 1, -1]) (-1) ∧
    IsOperand (load [1101, 1, 1, 4]) 1 .immediate 1 ∧ IsOperand (load [1101, 1, 1, 4]) 2 .immediate 1 :=
  ⟨by decide, by unfold InMemory; decide, by decide, by unfold InMemory; decide, imm_operand (by decide),
    imm_operand (by decide)⟩

/-- An invalid digit of the first and of the last extracted parameter, for each length. -/
theorem witness_modes_checked :
    (∀ w ∈ [201, 20001, 202, 20002, 207, 20007, 208, 20008], w ≤ 99999 ∧ (opOfCode (w % 100)).map Op.length = some 4) ∧
    (2 ≤ digit 201 (1 + 1) ∧ 2 ≤ digit 20008 (3 + 1)) ∧
    (opOfCode (205 % 100) = some .jit ∧ 2 ≤ digit 205 (1 + 1) ∧ 2 ≤ digit 9006 (2 + 1)) ∧
    (opOfCode (904 % 100) = some .load ∧ 2 ≤ digit 904 (1 + 1)) := by decide

theorem witness_ignored_digits :
    999 < 10 ^ (4 - Instr.halt.length) ∧ 99 < 10 ^ (4 - (Instr.load .position).length) ∧
    9 < 10 ^ (4 - (Instr.jit .immediate .immediate).length) ∧ 9 < 10 ^ (4 - (Instr.jif .position .position).length) := by
  decide

theorem witness_store_completes :
    (loadIn 7 [3, 1]).mem.wf ∧ (loadIn 7 [3, 1]).inValid = true ∧ (loadIn 7 [3, 1]).cell 1 = some 1 ∧
    InMemory (loadIn 7 [3, 1]) 1 := by
  unfold InMemory; decide

theorem witness_store_traps :
    (load [3]).cell 1 = none ∧ ((load [3, 1]).cell 1 = some 1 ∧ (load [3, 1]).inValid = false) ∧
    ((loadIn 7 [3, 2]).cell 1 = some 2 ∧ (loadIn 7 [3, 2]).inValid = true ∧ ¬ InMemory (loadIn 7 [3, 2]) 2) := by
  unfold InMemory; decide

theorem witness_load :
    IsOperand (load [104, 42]) 1 .immediate 42 ∧ IsOperand (load [4, 1]) 1 .position 1 ∧
    OperandFault (load [4]) 1 .position (.outOfBounds .param 1) ∧
    OperandFault (load [4, 2]) 1 .position (.outOfBounds .operand 2) :=
  ⟨imm_operand (by decide), pos_operand 1 (by decide) (by decide), .inl ⟨by decide, rfl⟩, pos_fault 2 (by decide) (by decide)⟩

/-- The conditions -1 and 0, a target outside memory, and a target that is resolved on a fall-through. -/
theorem witness_jumps :
    IsOperand (load [1105, -1, -7]) 1 .immediate (-1) ∧ IsOperand (load [1105, -1, -7]) 2 .immediate (-7) ∧
    IsOperand (load [1106, 0, 9]) 1 .immediate 0 ∧ IsOperand (load [1106, 0, 9]) 2 .immediate 9 ∧
    OperandFault (load [5, 3, 0]) 1 .position (.outOfBounds .operand 3) ∧
    IsOperand (load [105, 0, 3]) 1 .immediate 0 ∧ OperandFault (load [105, 0, 3]) 2 .position (.outOfBounds .operand 3) ∧
    IsOperand (load [1105, 0]) 1 .immediate 0 ∧ OperandFault (load [1105, 0]) 2 .immediate (.outOfBounds .param 2) :=
  ⟨imm_operand (by decide), imm_operand (by decide), imm_operand (by decide), imm_operand (by decide),
    pos_fault 3 (by decide) (by decide), imm_operand (by decide), pos_fault 3 (by decide) (by decide), imm_operand (by decide),
    .inl ⟨by decide, rfl⟩⟩

/-- A committed step and a faulted one for each frame; a destination read and one that is not. -/
theorem witness_frames :
    (∃ t, exec (.add .immediate .immediate .position) (load [1101, 1, 1, 0]) = .next t ∧ (t.fsm == .running) = true) ∧
    (∃ t, exec (.eq .immediate .immediate .position) (load [1108, 1, 1]) = .next t ∧ (t.fsm == .faulted) = true) ∧
    (∃ t, exec (.store .position) (loadIn 7 [3, 0]) = .next t ∧ (t.fsm == .running) = true) ∧
    (∃ t, exec (.store .position) (load [3]) = .next t ∧ (t.fsm == .faulted) = true) ∧
    (∃ t, exec (.load .position) (load [4, 0]) = .next t ∧ (t.fsm == .running) = true) ∧
    (∃ t, exec (.jit .position .position) (load [5, 0, 0]) = .next t ∧ (t.fsm == .running) = true) ∧
    (∃ t, exec .halt (load [99]) = .next t ∧ (t.fsm == .halted) = true) ∧
    destOperand (load [1101, 1, 1, 0]) 3 .position = .ok 0 ∧
    destOperand (load [1108, 1, 1]) 3 .position = .error (.outOfBounds .param 3) ∧
    destOperand (loadIn 7 [3, 0]) 1 .position = .ok 0 ∧
    destOperand (load [3]) 1 .position = .error (.outOfBounds .param 1) :=
  ⟨next_of (by decide), next_of (by decide), next_of (by decide), next_of (by decide), next_of (by decide),
    next_of (by decide), next_of (by decide), by decide, by decide, by decide, by decide⟩

theorem witness_fault_entry : (load [-1]).cell (load [-1]).pc = some (-1) ∧ AccessKind.write ≠ .fetch := by decide

/-- PC = -1 and PC = LEN. -/
theorem witness_fetch_outside :
    (load [99]).len ≠ 0 ∧ (load [99]).fsm = .running ∧ ({ load [99] with pc := -1 } : State).pc < 0 ∧
    ((load [99]).len : Int) ≤ ({ load [99] with pc := 1 } : State).pc := by decide

theorem witness_undecodable :
    ((load [98]).fsm = .running ∧ (load [98]).cell (load [98]).pc = some 98 ∧ decode 98 = .error .invalidOpcode) ∧
    ((load [204]).cell (load [204]).pc = some 204 ∧ decode 204 = .error (.invalidAddressingMode 1 2)) := by decide

/-- A halted and a faulted core. -/
def halted : State := { load [99] with fsm := .halted }
def faulted : State := enterFault (load [98]) .invalidOpcode

theorem witness_terminal :
    (halted.len ≠ 0 ∧ halted.fsm = .halted) ∧ (faulted.len ≠ 0 ∧ faulted.fsm = .faulted) := by decide

theorem witness_onlyLoadLeaves :
    (transact halted (.load ['9', '9'])).map (fun r => r.2.fsm) = .ok .running ∧
    (transact faulted (.load ['9', '9'])).map (fun r => r.2.fsm) = .ok .running ∧
    (transact faulted (.setInput 3)).map (fun r => (r.2.fsm, r.2.inLatch)) = .ok (.faulted, 3) ∧
    (transact halted (.run 5)).map Prod.fst = .ok (.ran true) := by decide

theorem witness_stepRuns : (load [99]).fsm = .running ∧ Fetches (load [99]) .halt := ⟨rfl, 99, by decide, by decide⟩

theorem witness_unloaded : State.reset.len = 0 := rfl

/-- Two cores that differ in OUT, OUT_VALID and FAULT. -/
theorem witness_stepInputs :
    let s₁ := load [104, 7]
    let s₂ : State := { load [104, 7] with outLatch := 5, outValid := true, fault := record .overflow 0 1 0 .fetch }
    s₁ ≠ s₂ ∧ s₁.len ≠ 0 ∧ s₁.fsm = .running ∧ s₂.fsm = .running ∧ s₁.cfg = s₂.cfg ∧ s₁.mem = s₂.mem ∧ s₁.len = s₂.len ∧
      s₁.pc = s₂.pc ∧ s₁.inLatch = s₂.inLatch ∧ s₁.inValid = s₂.inValid := by decide

/-- A core meeting both invariants, its values at the ends of their range. -/
def extremes : State := { loadIn 9223372036854775807 [1101, -9223372036854775808, 1, 0] with pc := 0 }

theorem witness_wellFormed : extremes.WellFormed := by constructor <;> decide
theorem witness_faultConsistent : extremes.FaultConsistent := by constructor <;> decide
theorem witness_faultConsistent_faulted : faulted.FaultConsistent := by constructor <;> decide
theorem witness_faultConsistent_fetch : (enterFault { load [99] with pc := 1 } (.outOfBounds .fetch 1)).FaultConsistent := by
  constructor <;> decide
theorem witness_wellFormed_steps : ∃ t, step extremes = .next t ∧ (t.pc == 4) = true := next_of (by decide)

/-- A step of each shape from a well-formed state: a jump taken (to the lowest target), one not taken, HALT, the rest. -/
theorem witness_nextPc :
    (load [1105, 1, -9223372036854775808]).WellFormed ∧
    Fetches (load [1105, 1, -9223372036854775808]) (.jit .immediate .immediate) ∧
    (∃ t, step (load [1105, 1, -9223372036854775808]) = .next t ∧ (t.pc == -9223372036854775808 && t.fsm == .running) = true) ∧
    Fetches (load [1106, 1, 0]) (.jif .immediate .immediate) ∧
    (∃ t, step (load [1106, 1, 0]) = .next t ∧ (t.pc == 3 && t.fsm == .running) = true) ∧
    (∃ t, step (load [99]) = .next t ∧ (t.pc == 0 && t.fsm == .halted) = true) :=
  ⟨by constructor <;> decide, ⟨1105, by decide, by decide⟩, next_of (by decide), ⟨1106, by decide, by decide⟩,
    next_of (by decide), next_of (by decide)⟩

/-- Each transaction that changes memory, and one that does not. -/
theorem witness_memoryPaths :
    (transact State.reset (.load ['9', '9', ',', '5'])).map (fun r => r.2.cells) = .ok [99, 5] ∧
    (transact (load [99]) (.hostWrite 0 3)).map (fun r => r.2.cells) = .ok [3] ∧
    (transact (load [1101, 1, 1, 0]) .step).map (fun r => r.2.cells) = .ok [2, 1, 1, 0] ∧
    (transact (load [1101, 1, 1, 0]) (.run 1)).map (fun r => r.2.cells) = .ok [2, 1, 1, 0] ∧
    (transact (load [99]) .view).map (fun r => r.2.cells) = .ok [99] := by decide

theorem witness_nextFetch_add :
    let s := load [1101, 98, 1, 4, 0]
    s.mem.wf ∧ s.fsm = .running ∧ IsOperand s 1 .immediate 98 ∧ IsOperand s 2 .immediate 1 ∧
      s.cell (s.pc + 3) = some (s.pc + 4) ∧ InMemory s (s.pc + 4) ∧ FitsW s.cfg.W (98 + 1) ∧ decode (98 + 1) = .ok .halt :=
  ⟨by decide, by decide, imm_operand (by decide), imm_operand (by decide), by decide, by unfold InMemory; decide, by decide,
    by decide⟩

theorem witness_nextFetch_store :
    let s := loadIn 99 [3, 2, 0]
    s.inValid = true ∧ s.cell (s.pc + 1) = some (s.pc + 2) ∧ InMemory s (s.pc + 2) ∧ decode s.inLatch = .ok .halt := by
  unfold InMemory; decide

theorem witness_runEnds_halted : RunSucceeds (load [99]) halted := ⟨⟨1, rfl, by decide⟩, rfl⟩
theorem witness_runEnds_faulted : RunFails (load [98]) faulted := ⟨⟨1, rfl, by decide⟩, rfl⟩
/-- BR7: `1105, 1, 0` loops, so the core is RUNNING and unchanged after a step. -/
theorem witness_hangs_step : after (load [1105, 1, 0]) = some (load [1105, 1, 0]) := by decide

theorem witness_halt_only :
    (load [99]).fsm = .running ∧ halted.fsm = .halted ∧ (∃ t, step halted = .next t ∧ (t == halted) = true) ∧
    (transact halted .status).map Prod.fst = .ok (.status .halted 0 FaultRecord.clear) :=
  ⟨by decide, by decide, next_of (by decide), by decide⟩

theorem witness_loads :
    State.reset.loadText ['9', '9'] = .ok (load [99]) ∧ halted.loadText ['-', '1', ',', '0', ',', ' '] = .ok (load [-1, 0]) ∧
    (load [99]).cell 0 = some 99 ∧ decode 99 = .ok .halt ∧ (load [-1, 0]).cell 0 = some (-1) ∧
    decode (-1) = .error .invalidOpcode := by decide

/-- Each ground of refusal, and a text that is admitted. -/
theorem witness_loadRefused :
    let small : State := { State.reset with cfg := { W := 18, memCap := 1 } }
    small.loadText [] = .error .noInteger ∧ small.loadText ['x'] = .error .notInGrammar ∧
      small.loadText ['1', '3', '1', '0', '7', '2'] = .error .doesNotFit ∧ small.loadText ['1', ',', '2'] = .error .overCapacity ∧
      (small.loadText ['1', '3', '1', '0', '7', '1']).map State.cells = .ok [131071] := by decide

theorem witness_view_loads : (load [0, -15]).WellFormed ∧ (load [0, -15]).len ≠ 0 ∧ State.reset.cfg = (load [0, -15]).cfg :=
  ⟨by constructor <;> decide, by decide, rfl⟩

/-- HOST_WRITE at the last cell and the largest value; refused in HALTED, at LEN, at -1 and on a value that does not fit. -/
theorem witness_hostWrite :
    ((load [99]).mem.wf ∧ (load [99]).fsm = .running ∧ InMemory (load [99]) 0 ∧ FitsW 64 9223372036854775807) ∧
    halted.fsm ≠ .running ∧ ¬ InMemory (load [99]) 1 ∧ ¬ InMemory (load [99]) (-1) ∧ ¬ FitsW 64 9223372036854775808 := by
  unfold InMemory; decide

theorem witness_setInput :
    (load [3, 1]).len ≠ 0 ∧ FitsW 64 (-9223372036854775808) ∧ (load [3, 1]).mem.wf ∧ (load [3, 1]).cell 1 = some 1 ∧
    InMemory (load [3, 1]) 1 := by
  unfold InMemory; decide

theorem witness_getOutput :
    ((load [104, 7]).len ≠ 0 ∧ (load [104, 7]).outValid = false) ∧ IsOperand (load [104, 7]) 1 .immediate 7 ∧
    ∃ t, exec (.load .immediate) (load [104, 7]) = .next t ∧ (t.outValid == true) = true :=
  ⟨by decide, imm_operand (by decide), next_of (by decide)⟩

/-- Two steps after a LOAD, a jump and a HALT, the value is still there; a LOAD is fetched; each kind of transaction. -/
theorem witness_getOutput_later :
    (((after (load [104, 7, 1106, 0, 5, 99])).bind after).bind after).map (fun t => (t.fsm, t.outValid, t.outLatch)) =
      some (.halted, true, 7) ∧
    (load [104, 7]).fsm = .running ∧ decode 104 = .ok (.load .immediate) ∧
    (transact { load [99] with outValid := true } (.load ['9'])).map (fun x => x.2.outValid) = .ok false ∧
    (transact { load [99] with outValid := true, outLatch := 7 } (.setInput 1)).map (fun x => (x.2.outValid, x.2.outLatch)) =
      .ok (true, 7) ∧
    (transact (load [104, 7]) .step).map (fun x => x.2.getOutput) = .ok (some 7) ∧
    (transact (load [104, 7, 99]) (.run 5)).map (fun x => x.2.getOutput) = .ok (some 7) := by decide

theorem witness_observing : (load [99]).len ≠ 0 ∧ (load [99]).cell 0 = some 99 ∧ (load [99]).cell 1 = none := by decide

/-- Each pseudo-instruction standing at PC: `JMP #-3`, `JMP [2]`, `NOP`, `MOV #9, [0]`, `MOV [3], #0`, and a `JMP` to a label. -/
theorem witness_pseudo :
    (valuesOf [] (AsmLine.jmp (.imm (-3))).numbers = some [1105, 1, -3] ∧ (load [1105, 1, -3]).cells = [1105, 1, -3]) ∧
    (valuesOf [] (AsmLine.jmp ⟨.position, .literal 2⟩).numbers = some [105, 1, 2] ∧ (load [105, 1, 2]).cells = [105, 1, 2]) ∧
    (valuesOf [] AsmLine.nop.numbers = some [1106, 1, 0] ∧ (load [1106, 1, 0]).cells = [1106, 1, 0]) ∧
    (valuesOf [] (AsmLine.mov (.imm 9) ⟨.position, .literal 0⟩).numbers = some [1101, 9, 0, 0] ∧
      (load [1101, 9, 0, 0]).cells = [1101, 9, 0, 0] ∧ (load [1101, 9, 0, 0]).mem.wf ∧ (load [1101, 9, 0, 0]).fsm = .running ∧
      FitsW 64 9 ∧ InMemory (load [1101, 9, 0, 0]) 0) ∧
    (valuesOf [] (AsmLine.mov ⟨.position, .literal 3⟩ (.imm 0)).numbers = some [11001, 3, 0, 0] ∧
      (load [11001, 3, 0, 0]).cells = [11001, 3, 0, 0] ∧ InMemory (load [11001, 3, 0, 0]) 0) ∧
    valuesOf [.jmp ⟨.immediate, .label "end"⟩, .define "end", .halt] (AsmLine.jmp ⟨.immediate, .label "end"⟩).numbers =
      some [1105, 1, 3] := by
  unfold InMemory; decide

theorem witness_pseudo_operands :
    (AsmOperand.imm (-3)).Gives [] (load [1105, 1, -3]) (-3) ∧
    AsmOperand.Gives ⟨.position, .literal 2⟩ [] (load [105, 1, 2]) 2 ∧
    (AsmOperand.imm 9).Gives [] (load [1101, 9, 0, 0]) 9 ∧
    AsmOperand.Gives ⟨.position, .literal 3⟩ [] (load [11001, 3, 0, 0]) 0 :=
  ⟨⟨-3, rfl, rfl⟩, ⟨2, rfl, by decide⟩, ⟨9, rfl, rfl⟩, ⟨3, rfl, by decide⟩⟩

/-- A loaded core in each case of LoadedCoreAlwaysSteps: not RUNNING, an instruction, no cell at PC, a word that does not
decode. -/
theorem witness_loaded_steps :
    halted.len ≠ 0 ∧ halted.fsm ≠ .running ∧ (load [99]).fsm = .running ∧ decode 99 = .ok .halt ∧
    ({ load [99] with pc := 1 } : State).cell 1 = none ∧ (load [98]).cell 0 = some 98 ∧
    decode 98 = .error .invalidOpcode := by decide

/-- The written address of OnlyListedPathsChangeMemory, for a length of 4 and of 2. -/
theorem witness_written_address :
    (load [1101, 1, 1, 0]).cell (0 + ((Instr.add .immediate .immediate .position).length : Int) - 1) = some 0 ∧
    (loadIn 7 [3, 1]).cell (0 + ((Instr.store .position).length : Int) - 1) = some 1 := by decide

end Sys2Proof.Tests
end

section
/-!
PROOFS. Every step keeps `State.WellFormed`: one lemma per operation on the state, then per effect of an instruction, then for
the step.
-/

namespace Sys2Proof.Machine

/-! ### What a step from a well-formed state reads and computes fits -/

theorem Fetches.pc_inMemory {s : State} {i : Instr} (h : Fetches s i) : InMemory s s.pc := by
  obtain ⟨w, hw, -⟩ := h
  exact ((s.cell_eq_some_iff s.pc w).mp hw).1

/-- The capacity of 00_scope R5 leaves room for the longest instruction after the last cell. -/
theorem State.WellFormed.pc_add_fits {s : State} (h : s.WellFormed) (hpc : InMemory s s.pc) {k : Int} (h0 : 0 ≤ k)
    (h4 : k ≤ 4) : FitsW s.cfg.W (s.pc + k) := by
  obtain ⟨-, -, hcap⟩ := h.cfgValid
  obtain ⟨hlo, hhi⟩ := hpc
  have hlen := h.lenCapped
  constructor <;> omega

theorem State.WellFormed.operand_fits {s : State} (h : s.WellFormed) {k v : Int} {m : Mode} (hv : IsOperand s k m v) :
    FitsW s.cfg.W v := by
  obtain ⟨raw, hraw, hm⟩ := hv
  cases m with
  | immediate => exact hm ▸ h.cell_fits hraw
  | position => exact h.cell_fits hm

theorem State.WellFormed.wordAtPc_fits {s : State} (h : s.WellFormed) : FitsW s.cfg.W s.wordAtPc := by
  unfold State.wordAtPc
  cases hw : s.cell s.pc with
  | none => exact FitsW.zero s.cfg.W
  | some w => exact h.cell_fits hw

/-! ### The fault record -/

@[simp] theorem Raise.record_pc (pc word : Int) (r : Raise) : (r.record pc word).pc = pc := by cases r <;> rfl
@[simp] theorem Raise.record_word (pc word : Int) (r : Raise) : (r.record pc word).word = word := by cases r <;> rfl

/-- Of a step's raises only OutOfBounds names an address. -/
theorem Raise.record_addr_fits {W : Nat} (pc word : Int) {r : Raise}
    (h : ∀ kind a, r = .outOfBounds kind a → FitsW W a) : FitsW W (r.record pc word).addr := by
  cases r with
  | outOfBounds kind a => exact h kind a rfl
  | _ => exact FitsW.zero W

theorem ExecRaise.addr_fits {s : State} {r : Raise} (hr : ExecRaise s r) (h : s.WellFormed) (hpc : InMemory s s.pc)
    (kind : AccessKind) (a : Int) (he : r = .outOfBounds kind a) : FitsW s.cfg.W a := by
  cases hr with
  | overflow => cases he
  | inputUndefined => cases he
  | param k h1 h3 =>
    cases he
    exact h.pc_add_fits hpc (by omega) (by omega)
  | named _ _ b _ hb =>
    cases he
    exact h.cell_fits hb

/-- A fetch out of bounds names PC; the decoder's refusals name no address. -/
theorem fetchDecode_addr_fits {s : State} {r : Raise} (hr : fetchDecode s = .error r) (h : s.WellFormed)
    (kind : AccessKind) (a : Int) (he : r = .outOfBounds kind a) : FitsW s.cfg.W a := by
  rcases (fetchDecode_error_iff s r).mp hr with ⟨-, rfl⟩ | ⟨w, e, -, -, rfl⟩
  · cases he
    exact h.pcFits
  · cases e <;> cases he

/-! ### The operations on the state -/

theorem State.WellFormed.withCell {s : State} (h : s.WellFormed) {a v : Int} (ha : InMemory s a) (hv : FitsW s.cfg.W v) :
    (s.withCell a v).WellFormed :=
  { h with
    memCanonical := Memory.set_wf s.mem a.toNat v h.memCanonical
    memInRange := fun c hc => by
      rcases Memory.mem_set s.mem a.toNat v c hc with hc | ⟨rfl, -⟩
      · exact h.memInRange c hc
      · obtain ⟨hlo, hhi⟩ := ha
        show a.toNat < s.len
        omega
    memFits := fun c hc => by
      rcases Memory.mem_set s.mem a.toNat v c hc with hc | ⟨rfl, -⟩
      · exact h.memFits c hc
      · exact hv }

theorem State.WellFormed.withPc {s : State} (h : s.WellFormed) {p : Int} (hp : FitsW s.cfg.W p) : (s.withPc p).WellFormed :=
  { h with pcFits := hp }

theorem State.WellFormed.consumeInput {s : State} (h : s.WellFormed) : s.consumeInput.WellFormed := { h with }

theorem State.WellFormed.withOutput {s : State} (h : s.WellFormed) {v : Int} (hv : FitsW s.cfg.W v) :
    (s.withOutput v).WellFormed :=
  { h with outFits := hv }

theorem State.WellFormed.halt {s : State} (h : s.WellFormed) : s.halt.WellFormed := { h with }

theorem State.WellFormed.enterFault {s : State} (h : s.WellFormed) {r : Raise}
    (hr : ∀ kind a, r = .outOfBounds kind a → FitsW s.cfg.W a) : (enterFault s r).WellFormed :=
  { h with
    faultPcFits := by simpa using h.pcFits
    faultWordFits := by simpa using h.wordAtPc_fits
    faultAddrFits := Raise.record_addr_fits s.pc s.wordAtPc hr }

/-! ### The step -/

/-- Every effect of an instruction fetched from memory keeps well-formedness. -/
theorem Effect.wellFormed {s t : State} {i : Instr} (he : Effect s i t) (h : s.WellFormed) (hpc : InMemory s s.pc) :
    t.WellFormed := by
  cases he with
  | raised _ r _ hr => exact h.enterFault (hr.addr_fits h hpc)
  | wrote _ _ _ _ d v _ _ hin hv =>
    exact (h.withCell hin (hv h.cfgValid.1)).withPc (h.pc_add_fits hpc (by decide) (by decide))
  | stored _ d _ _ hin => exact (h.withCell hin h.inFits).consumeInput.withPc (h.pc_add_fits hpc (by decide) (by decide))
  | loaded _ v hv => exact (h.withOutput (h.operand_fits hv)).withPc (h.pc_add_fits hpc (by decide) (by decide))
  | jumped _ _ _ p _ hp =>
    refine h.withPc ?_
    rcases hp with rfl | hp
    · exact h.pc_add_fits hpc (by decide) (by decide)
    · exact h.operand_fits hp
  | halted => exact h.halt

theorem Effect.cfg_len {s t : State} {i : Instr} (he : Effect s i t) : t.cfg = s.cfg ∧ t.len = s.len := by
  cases he <;> exact ⟨rfl, rfl⟩

theorem step_keeps_wellFormed {s t : State} (h : s.WellFormed) (hst : step s = .next t) : t.WellFormed := by
  obtain ⟨-, ⟨-, rfl⟩ | ⟨-, r, hr, rfl⟩ | ⟨-, i, hi, -, he⟩⟩ := step_cases s t hst
  · exact h
  · exact h.enterFault (fetchDecode_addr_fits hr h)
  · exact he.wellFormed h ((fetchDecode_ok_iff s i).mp hi).pc_inMemory

theorem step_keeps_cfg_len {s t : State} (hst : step s = .next t) : t.cfg = s.cfg ∧ t.len = s.len := by
  obtain ⟨-, ⟨-, rfl⟩ | ⟨-, r, -, rfl⟩ | ⟨-, i, -, -, he⟩⟩ := step_cases s t hst
  · exact ⟨rfl, rfl⟩
  · exact ⟨rfl, rfl⟩
  · exact he.cfg_len

/-- Settles O35: a running step acts only where PC names a cell, so PC + 4 still fits by the capacity limit of R5; results fit
by the Overflow check (D2), and every other value it stores is one memory or IN already held. -/
theorem stepKeepsWellFormed : Obligations.StepKeepsWellFormed :=
  fun _ _ h hst => ⟨step_keeps_wellFormed h hst, step_keeps_cfg_len hst⟩

end Sys2Proof.Machine
end

section
/-!
PROOFS. Every step keeps `State.FaultConsistent`: what the decoder's refusals carry, then what any raise of a step carries, then
the two ways a step leaves the record: as it was, or as fault entry writes it.
-/

namespace Sys2Proof

/-! ### The decoder's refusals -/

/-- A refusal for a mode names a parameter and a digit that is no mode (30_encoding R76). -/
def DecodeFault.InRange : DecodeFault → Prop
  | .invalidOpcode => True
  | .invalidAddressingMode p d => 1 ≤ p.val ∧ 2 ≤ d.val ∧ d.val ≤ 9

theorem decodeMode_error_inRange {n : Nat} {i : Fin 4} {e : DecodeFault} (h : decodeMode n i = .error e) (hi : 1 ≤ i.val) :
    e.InRange := by
  have hlt : digit n (i.val + 1) < 10 := Nat.mod_lt _ (by decide)
  unfold decodeMode at h
  split at h
  · cases h
  · cases h
  next d h0 h1 =>
    cases h
    rw [imp_false] at h0 h1
    simp only [DecodeFault.InRange, Fin.val_ofNat]
    omega

theorem decodeModes1_error_inRange {n : Nat} {f : Mode → Instr} {e : DecodeFault} (h : decodeModes1 n f = .error e) :
    e.InRange := by
  unfold decodeModes1 at h
  split at h
  next h1 => cases h; exact decodeMode_error_inRange h1 (by decide)
  · cases h

theorem decodeModes2_error_inRange {n : Nat} {f : Mode → Mode → Instr} {e : DecodeFault} (h : decodeModes2 n f = .error e) :
    e.InRange := by
  unfold decodeModes2 at h
  split at h
  next h1 => cases h; exact decodeMode_error_inRange h1 (by decide)
  · split at h
    next h2 => cases h; exact decodeMode_error_inRange h2 (by decide)
    · cases h

theorem decodeModes3_error_inRange {n : Nat} {f : Mode → Mode → Mode → Instr} {e : DecodeFault}
    (h : decodeModes3 n f = .error e) : DecodeFault.InRange e := by
  unfold decodeModes3 at h
  split at h
  next h1 => cases h; exact decodeMode_error_inRange h1 (by decide)
  · split at h
    next h2 => cases h; exact decodeMode_error_inRange h2 (by decide)
    · split at h
      next h3 => cases h; exact decodeMode_error_inRange h3 (by decide)
      · cases h

theorem decodeOp_error_inRange {n : Nat} {op : Op} {e : DecodeFault} (h : decodeOp n op = .error e) :
    e.InRange := by
  cases op with
  | add | mul | lt | eq => exact decodeModes3_error_inRange h
  | jit | jif => exact decodeModes2_error_inRange h
  | store | load => exact decodeModes1_error_inRange h
  | halt => cases h

theorem decode_error_inRange {w : Int} {e : DecodeFault} (h : decode w = .error e) : e.InRange := by
  unfold decode at h
  split at h
  · cases h; trivial
  · split at h
    · cases h; trivial
    · exact decodeOp_error_inRange h

end Sys2Proof

namespace Sys2Proof.Machine

/-! ### What a raise carries -/

/-- What `State.FaultConsistent` asks of a raise recorded in `s`: a refused mode is in range, and a FETCH fault names PC, where
no cell is. -/
def Raise.Recordable (s : State) : Raise → Prop
  | .invalidAddressingMode p d => DecodeFault.InRange (.invalidAddressingMode p d)
  | .outOfBounds .fetch a => a = s.pc ∧ s.cell s.pc = none
  | _ => True

/-- The phases after decode refuse no mode and raise no FETCH fault. -/
theorem ExecRaise.recordable {s : State} {r : Raise} (hr : ExecRaise s r) : r.Recordable s := by
  cases hr with
  | overflow => trivial
  | inputUndefined => trivial
  | param => trivial
  | named kind _ _ hk =>
    cases kind with
    | fetch => exact absurd rfl hk
    | param | operand | write => trivial

theorem fetchDecode_error_recordable {s : State} {r : Raise} (hr : fetchDecode s = .error r) : r.Recordable s := by
  rcases (fetchDecode_error_iff s r).mp hr with ⟨hc, rfl⟩ | ⟨w, e, -, he, rfl⟩
  · exact ⟨rfl, hc⟩
  · cases e with
    | invalidOpcode => trivial
    | invalidAddressingMode p d => exact decode_error_inRange he

/-- The word a fault record carries is 0 where PC names no cell (10_state R29). -/
theorem State.wordAtPc_of_cell_eq_none {s : State} (h : s.cell s.pc = none) : s.wordAtPc = 0 := by
  simp [State.wordAtPc, h]

/-! ### The record after a step -/

/-- Fault entry writes a consistent record, whatever the record before it. -/
theorem enterFault_faultConsistent {s : State} {r : Raise} (hr : r.Recordable s) : (enterFault s r).FaultConsistent := by
  have hcode : (r.record s.pc s.wordAtPc).code ≠ .none := by cases r <;> simp [Raise.record]
  refine
    { recordedIffFaulted := iff_of_true hcode rfl
      clearUnlessFaulted := fun h => absurd h hcode
      pcOfFault := fun _ => Raise.record_pc _ _ r
      boundsFieldsUnused := fun h => ?_
      modeFieldsUnused := fun h => ?_
      modeFieldsInRange := fun h => ?_
      fetchFaultHasNoWord := fun h hk => ?_ }
  · cases r with
    | outOfBounds => exact absurd rfl h
    | _ => exact ⟨rfl, rfl⟩
  · cases r with
    | invalidAddressingMode => exact absurd rfl h
    | _ => exact ⟨rfl, rfl⟩
  · cases r with
    | invalidAddressingMode => exact hr
    | _ => cases h
  · cases r with
    | outOfBounds kind a =>
      obtain rfl : kind = .fetch := hk
      obtain ⟨ha, hc⟩ := hr
      exact ⟨State.wordAtPc_of_cell_eq_none hc, ha, hc⟩
    | _ => cases h

/-- Outside FAULTED the clear record is the only consistent one. -/
theorem State.faultConsistent_iff_of_not_faulted {s : State} (hf : s.fsm ≠ .faulted) :
    s.FaultConsistent ↔ s.fault = FaultRecord.clear := by
  constructor
  · intro h
    exact h.clearUnlessFaulted (not_not.mp fun hc => hf (h.recordedIffFaulted.mp hc))
  · intro h
    constructor <;> simp [h, FaultRecord.clear, hf]

/-- An instruction enters a recordable fault, or leaves the record as it was and FSM not newly FAULTED. -/
theorem Effect.fault_cases {s t : State} {i : Instr} (he : Effect s i t) :
    (∃ r, r.Recordable s ∧ t = enterFault s r) ∨ (t.fault = s.fault ∧ (t.fsm = s.fsm ∨ t.fsm = .halted)) := by
  cases he with
  | raised _ r _ hr => exact .inl ⟨r, hr.recordable, rfl⟩
  | halted => exact .inr ⟨rfl, .inr rfl⟩
  | wrote | stored | loaded | jumped => exact .inr ⟨rfl, .inl rfl⟩

theorem Effect.faultConsistent {s t : State} {i : Instr} (he : Effect s i t) (h : s.FaultConsistent)
    (hrun : s.fsm = .running) : t.FaultConsistent := by
  rcases he.fault_cases with ⟨r, hr, rfl⟩ | ⟨hfault, hfsm⟩
  · exact enterFault_faultConsistent hr
  · have hclear := (State.faultConsistent_iff_of_not_faulted (by simp [hrun])).mp h
    have hf : t.fsm ≠ .faulted := by rcases hfsm with hfsm | hfsm <;> simp [hfsm, hrun]
    exact (State.faultConsistent_iff_of_not_faulted hf).mpr (hfault.trans hclear)

theorem step_keeps_faultConsistent {s t : State} (h : s.FaultConsistent) (hst : step s = .next t) : t.FaultConsistent := by
  obtain ⟨-, ⟨-, rfl⟩ | ⟨-, r, hr, rfl⟩ | ⟨hrun, i, -, -, he⟩⟩ := step_cases s t hst
  · exact h
  · exact enterFault_faultConsistent (fetchDecode_error_recordable hr)
  · exact he.faultConsistent h hrun

/-- Settles O36: a step from RUNNING keeps the clear record or enters a recordable fault, since decode refuses only digits 2 to 9
of parameters 1 to 3 and only a fetch that finds no cell at PC raises FETCH (decision D12). -/
theorem stepKeepsFaultRecordConsistent : Obligations.StepKeepsFaultRecordConsistent :=
  fun _ _ h hst => step_keeps_faultConsistent h hst

end Sys2Proof.Machine
end

section
/-!
PROOFS. What an accepted load and an accepted transaction can do, said once, and from it that LEN is the load's.
-/

namespace Sys2Proof.Machine

/-! ### A load -/

theorem splitCommas_ne_nil (t : List Char) : splitCommas t ≠ [] := by
  cases t with
  | nil => simp [splitCommas]
  | cons c cs =>
    unfold splitCommas
    split
    · simp
    · split <;> simp

/-- One integer is read from each piece. -/
theorem parseAll_length {fs : List (List Char)} {vs : List Int} (h : parseAll fs = some vs) : vs.length = fs.length := by
  induction fs generalizing vs with
  | nil => cases h; rfl
  | cons f fs ih =>
    unfold parseAll at h
    split at h
    · cases h
    · obtain ⟨ws, hws, rfl⟩ := Option.map_eq_some_iff.mp h
      simp [ih hws]

theorem parseProgram_ne_nil {text : List Char} {vs : List Int} (h : parseProgram text = some vs) : vs ≠ [] := by
  intro hnil
  have hlen := parseAll_length h
  rw [hnil] at hlen
  exact splitCommas_ne_nil _ (List.length_eq_zero_iff.mp hlen.symm)

theorem parseProgram_of_blank {text : List Char} (h : stripWs text = []) : parseProgram text = none := by
  rw [parseProgram, h]
  rfl

/-- A load is accepted exactly on the text of an admitted program, and resets the core to it (70_reset R240, R243). -/
theorem State.loadText_ok_iff (s t : State) (text : List Char) :
    s.loadText text = .ok t ↔ ∃ vs, parseProgram text = some vs ∧ s.cfg.Admits vs ∧ t = s.loadProgram vs := by
  unfold State.loadText
  split
  next hb => simp [parseProgram_of_blank hb]
  · cases hp : parseProgram text with
    | none => simp
    | some vs =>
      simp only [Option.some.injEq, exists_eq_left']
      split
      next hfit => exact iff_of_false nofun fun ⟨⟨_, hfit', _⟩, _⟩ => hfit hfit'
      next hfit =>
        split
        next hcap => exact iff_of_false nofun fun ⟨⟨_, _, hcap'⟩, _⟩ => Nat.not_lt.mpr hcap' hcap
        next hcap =>
          have hadm : s.cfg.Admits vs := ⟨parseProgram_ne_nil hp, not_not.mp hfit, Nat.not_lt.mp hcap⟩
          rw [Except.ok.injEq, eq_comm, and_iff_right hadm]

/-! ### A run -/

/-- What every step keeps, a run keeps. -/
theorem runFor_keeps {P : State → Prop} (hstep : ∀ s t, P s → step s = .next t → P t) (n : Nat) {s t : State} (h : P s)
    (hr : runFor n s = .next t) : P t := by
  induction n generalizing s with
  | zero => cases hr; exact h
  | succ n ih =>
    unfold runFor at hr
    split at hr
    · split at hr
      next u hu => exact ih (hstep s u h hu) hr
      · cases hr
      · cases hr
    · cases hr; exact h

/-! ### A transaction -/

/-- The transactions that only read the core (70_reset R247). -/
def Transaction.Observes : Transaction → Prop
  | .hostRead _ | .view | .getOutput | .status => True
  | .load _ | .hostWrite _ _ | .setInput _ | .step | .run _ => False

/-- What an accepted transaction in `s` can lead to. -/
inductive Accepted (s : State) : Transaction → State → Prop where
  | loaded (text : List Char) (vs : List Int) : parseProgram text = some vs → s.cfg.Admits vs →
      Accepted s (.load text) (s.loadProgram vs)
  | wrote (a v : Int) : s.fsm = .running → InMemory s a → FitsW s.cfg.W v → Accepted s (.hostWrite a v) (s.withCell a v)
  | inputSet (v : Int) : FitsW s.cfg.W v → Accepted s (.setInput v) { s with inLatch := v, inValid := true }
  | observed (x : Transaction) : x.Observes → Accepted s x s
  | stepped (t : State) : step s = .next t → Accepted s .step t
  | ran (budget : Nat) (t : State) : runFor budget s = .next t → Accepted s (.run budget) t

theorem State.hostWrite_ok_iff (s t : State) (a v : Int) :
    s.hostWrite a v = .ok t ↔ s.fsm = .running ∧ InMemory s a ∧ FitsW s.cfg.W v ∧ t = s.withCell a v := by
  unfold State.hostWrite
  split
  next hf => exact iff_of_false nofun fun ⟨hf', _⟩ => hf hf'
  next hf =>
    rw [and_iff_right (not_not.mp hf)]
    split
    next ha => exact iff_of_false nofun fun ⟨ha', _⟩ => (s.cell_eq_none_iff a).mp ha ha'
    next ha =>
      rw [and_iff_right (not_not.mp (mt (s.cell_eq_none_iff a).mpr ha))]
      split
      next hv => exact iff_of_false nofun fun ⟨hv', _⟩ => hv hv'
      next hv => rw [Except.ok.injEq, eq_comm, and_iff_right (not_not.mp hv)]

theorem State.setInput_ok_iff (s t : State) (v : Int) :
    s.setInput v = .ok t ↔ FitsW s.cfg.W v ∧ t = { s with inLatch := v, inValid := true } := by
  unfold State.setInput
  split
  next hv => rw [Except.ok.injEq, eq_comm, and_iff_right hv]
  next hv => exact iff_of_false nofun fun ⟨hv', _⟩ => hv hv'

theorem afterSteps_ok {reply : State → Reply} {o : Host.Outcome State Fault Refusal} {r : Reply} {t : State}
    (h : afterSteps reply o = .ok (r, t)) : o = .next t := by
  cases o <;> cases h
  rfl

/-- A reply built from an operation that may be refused comes from an answer of the operation. -/
theorem ok_of_map_reply_ok {α : Type} {e : Except HostRefusal α} {reply : α → Reply} {after : α → State} {r : Reply} {t : State}
    (h : e.map (fun a => (reply a, after a)) = .ok (r, t)) : ∃ a, e = .ok a ∧ after a = t := by
  cases e with
  | error => cases h
  | ok a => cases h; exact ⟨a, rfl, rfl⟩

/-- What is accepted behind the guard for a core not yet loaded (70_reset R241) is accepted without it. -/
theorem ok_of_guard_ok {α : Type} {p : Prop} [Decidable p] {err : HostRefusal} {e : Except HostRefusal α} {a : α}
    (h : (if p then .error err else e) = .ok a) : e = .ok a := by
  split at h
  · cases h
  · exact h

/-- An accepted transaction has one of the effects of `Accepted` and no other. -/
theorem transact_accepted {s t : State} {x : Transaction} {reply : Reply} (h : transact s x = .ok (reply, t)) :
    Accepted s x t := by
  cases x with
  | load text =>
    obtain ⟨u, hu, rfl⟩ := ok_of_map_reply_ok h
    obtain ⟨vs, hp, hadm, rfl⟩ := (s.loadText_ok_iff u text).mp hu
    exact .loaded text vs hp hadm
  | hostWrite a v =>
    obtain ⟨u, hu, rfl⟩ := ok_of_map_reply_ok (ok_of_guard_ok h)
    obtain ⟨hf, ha, hv, rfl⟩ := (s.hostWrite_ok_iff u a v).mp hu
    exact .wrote a v hf ha hv
  | setInput v =>
    obtain ⟨u, hu, rfl⟩ := ok_of_map_reply_ok (ok_of_guard_ok h)
    obtain ⟨hv, rfl⟩ := (s.setInput_ok_iff u v).mp hu
    exact .inputSet v hv
  | hostRead a =>
    obtain ⟨v, -, rfl⟩ := ok_of_map_reply_ok (ok_of_guard_ok h)
    exact .observed _ trivial
  | view | getOutput | status =>
    cases ok_of_guard_ok h
    exact .observed _ trivial
  | step => exact .stepped t (afterSteps_ok h)
  | run budget => exact .ran budget t (afterSteps_ok (ok_of_guard_ok h))

/-! ### LEN -/

theorem runFor_keeps_len {n : Nat} {s t : State} (h : runFor n s = .next t) : t.len = s.len :=
  runFor_keeps (P := fun u => u.len = s.len) (fun _ _ hu hst => (step_keeps_cfg_len hst).2.trans hu) n rfl h

/-- Only a load is a transaction that sets LEN. -/
theorem Accepted.len {s t : State} {x : Transaction} (h : Accepted s x t) (hx : ∀ text, x ≠ .load text) : t.len = s.len := by
  cases h with
  | loaded text => exact absurd rfl (hx text)
  | wrote | inputSet | observed => rfl
  | stepped _ hst => exact (step_keeps_cfg_len hst).2
  | ran _ _ hr => exact runFor_keeps_len hr

/-- Settles O41: every effect of a step and of a transaction but the load's leaves LEN alone, the load's is the length of an
admitted program, and a cell is looked up only inside `[0, LEN)`. -/
theorem lenIsFixedByTheLoad : Obligations.LenIsFixedByTheLoad := by
  refine ⟨fun s t hst => (step_keeps_cfg_len hst).2, fun s t x reply h hx => (transact_accepted h).len hx, ?_, ?_⟩
  · intro s t text h
    obtain ⟨vs, hp, hadm, rfl⟩ := (s.loadText_ok_iff t text).mp h
    exact ⟨vs, hp, rfl, List.length_pos_iff.mpr hadm.1, hadm.2.2⟩
  · intro s a
    rw [s.cell_eq_none_iff a, InMemory]
    omega

end Sys2Proof.Machine
end

section
/-!
PROOFS. The two accesses to memory, MemRead and MemWrite, as their rules state them.
-/

namespace Sys2Proof.Machine

/-- Settles O7: a read answers what the cell lookup finds, and the lookup finds nothing exactly outside `[0, LEN)`. -/
theorem memoryReadChecksBounds : Obligations.MemoryReadChecksBounds := by
  intro s a kind
  constructor
  · intro hout
    have hnone : s.cell a = none := (s.cell_eq_none_iff a).mpr fun ⟨hlo, hhi⟩ => by omega
    exact (memRead_error_iff s a kind _).mpr ⟨hnone, rfl⟩
  · intro hlo hhi
    exact (memRead_ok_iff s a _ kind).mpr ((s.cell_eq_some_iff a _).mpr ⟨⟨hlo, hhi⟩, rfl⟩)

/-- Settles O8: an accepted write is `State.withCell`, for which read after write holds in canonical memory. -/
theorem memoryWriteChangesOneCell : Obligations.MemoryWriteChangesOneCell := by
  intro s a v
  refine ⟨memWrite_outside s a v, fun hwf hin => ⟨s.withCell a v, memWrite_inside s a v hin, ?_, ?_, rfl⟩⟩
  · exact s.cell_withCell_same a v hwf hin
  · exact fun b hb => s.cell_withCell_other a b v hin.1 hb

end Sys2Proof.Machine
end

section
/-!
PROOFS. What an instruction does to memory, said once for every effect: nothing, or one write to the cell its destination
parameter names. From it the frames of the instructions and the paths by which memory changes.
-/

namespace Sys2Proof.Machine

/-! ### The destination of an instruction -/

/-- `d` is the address that the destination parameter of `i` holds in `s`; none where `i` has no destination
(30_encoding R77, R78). -/
def NamesDest (s : State) (i : Instr) (d : Int) : Prop :=
  ∃ k, i.op.destParam = some k ∧ s.cell (s.pc + (k : Int)) = some d

/-- The operations with a destination are the five that write a cell, and it is their last parameter. -/
theorem Op.destParam_eq_some_iff (op : Op) (k : Nat) :
    op.destParam = some k ↔
      (op = .add ∨ op = .mul ∨ op = .store ∨ op = .lt ∨ op = .eq) ∧ (k : Int) = (op.length : Int) - 1 := by
  cases op <;> simp [Op.destParam, Op.length] <;> omega

theorem namesDest_iff (s : State) (i : Instr) (d : Int) :
    NamesDest s i d ↔
      (i.op = .add ∨ i.op = .mul ∨ i.op = .store ∨ i.op = .lt ∨ i.op = .eq) ∧
        s.cell (s.pc + (i.length : Int) - 1) = some d := by
  simp only [NamesDest, Op.destParam_eq_some_iff, add_sub_assoc, Instr.length]
  constructor
  · rintro ⟨k, ⟨hop, hk⟩, hcell⟩
    exact ⟨hop, hk ▸ hcell⟩
  · rintro ⟨hop, hcell⟩
    have hk : ((i.op.length - 1 : Nat) : Int) = (i.op.length : Int) - 1 := by cases i.op <;> rfl
    exact ⟨i.op.length - 1, ⟨hop, hk⟩, hk ▸ hcell⟩

theorem IsI4.namesDest_iff {i : Instr} {m1 m2 m3 : Mode} (hi : IsI4 i m1 m2 m3) (s : State) (d : Int) :
    NamesDest s i d ↔ destOperand s 3 m3 = .ok d := by
  rw [destOperand_ok_iff]
  cases hi <;> simp [NamesDest, Instr.op, Op.destParam]

theorem store_namesDest_iff (s : State) (m1 : Mode) (d : Int) :
    NamesDest s (.store m1) d ↔ destOperand s 1 m1 = .ok d := by
  rw [destOperand_ok_iff]
  simp [NamesDest, Instr.op, Op.destParam]

/-! ### Memory -/

/-- An instruction leaves memory as it was, or sets the one cell, inside memory, that its destination parameter names. -/
theorem Effect.mem_cases {s t : State} {i : Instr} (he : Effect s i t) :
    t.mem = s.mem ∨ ∃ d v, NamesDest s i d ∧ InMemory s d ∧ t.mem = s.mem.set d.toNat v := by
  cases he with
  | wrote _ _ _ m3 d v hi hd hin =>
    exact .inr ⟨d, v, (hi.namesDest_iff s d).mpr ((destOperand_ok_iff s 3 d m3).mpr hd), hin, rfl⟩
  | stored m1 d hd _ hin =>
    exact .inr ⟨d, s.inLatch, (store_namesDest_iff s m1 d).mpr ((destOperand_ok_iff s 1 d m1).mpr hd), hin, rfl⟩
  | raised | loaded | jumped | halted => exact .inl rfl

theorem Effect.mem_eq_of_no_dest {s t : State} {i : Instr} (he : Effect s i t) (hi : ∀ d, ¬ NamesDest s i d) :
    t.mem = s.mem := by
  rcases he.mem_cases with hm | ⟨d, -, hd, -⟩
  · exact hm
  · exact absurd hd (hi d)

/-- Every cell but the one the destination parameter names is kept. -/
theorem Effect.cell_kept {s t : State} {i : Instr} (he : Effect s i t) {a : Int} (ha : ¬ NamesDest s i a) :
    t.cell a = s.cell a := by
  rcases he.mem_cases with hm | ⟨d, v, hd, hin, hm⟩
  · exact State.cell_congr s t a hm he.cfg_len.2
  · have hne : a ≠ d := fun h => ha (h ▸ hd)
    calc t.cell a = (s.withCell d v).cell a := State.cell_congr (s.withCell d v) t a hm he.cfg_len.2
      _ = s.cell a := s.cell_withCell_other d a v hin.1 hne

/-- The same, by what resolving the destination answers: every other cell is kept where it answers an address, and every cell
where it faults. -/
theorem Effect.cells_kept_by_dest {s t : State} {i : Instr} (he : Effect s i t) {dest : Except Raise Int}
    (hdest : ∀ a, NamesDest s i a ↔ dest = .ok a) :
    (∀ d, dest = .ok d → ∀ a, a ≠ d → t.cell a = s.cell a) ∧ (∀ r, dest = .error r → ∀ a, t.cell a = s.cell a) := by
  constructor
  · rintro d rfl a ha
    exact he.cell_kept fun h => ha (Except.ok.inj ((hdest a).mp h)).symm
  · rintro r rfl a
    exact he.cell_kept fun h => nomatch (hdest a).mp h

/-! ### The rest of the state -/

/-- Every instruction but HALT commits with FSM and FAULT kept, or enters a fault with all else kept. -/
theorem Effect.commonFrame {s t : State} {i : Instr} (he : Effect s i t) (hi : i ≠ .halt) : CommonFrame s t := by
  cases he with
  | raised => exact ⟨rfl, rfl, rfl, .inr ⟨rfl, rfl, rfl, rfl, rfl, rfl⟩⟩
  | halted => exact absurd rfl hi
  | wrote | stored | loaded | jumped => exact ⟨rfl, rfl, rfl, .inl ⟨rfl, rfl⟩⟩

theorem Effect.inLatch {s t : State} {i : Instr} (he : Effect s i t) : t.inLatch = s.inLatch := by
  cases he <;> rfl

/-- Only STORE consumes the input. -/
theorem Effect.inValid {s t : State} {i : Instr} (he : Effect s i t) (hi : i.op ≠ .store) : t.inValid = s.inValid := by
  cases he with
  | stored => exact absurd rfl hi
  | raised | wrote | loaded | jumped | halted => rfl

/-- Only LOAD writes the output latch. -/
theorem Effect.output {s t : State} {i : Instr} (he : Effect s i t) (hi : i.op ≠ .load) :
    t.outLatch = s.outLatch ∧ t.outValid = s.outValid := by
  cases he with
  | loaded => exact absurd rfl hi
  | raised | wrote | stored | jumped | halted => exact ⟨rfl, rfl⟩

/-! ### The frames -/

/-- Settles O19: ADD, MUL, LT and EQ touch no latch, and of memory at most the cell their third parameter names. -/
theorem resultInstructionsFrame : Obligations.ResultInstructionsFrame := by
  intro s t m1 m2 m3 i hi hexec
  have he := exec_effect i s t hexec
  have hI4 : IsI4 i m1 m2 m3 := by rcases hi with rfl | rfl | rfl | rfl <;> constructor
  obtain ⟨hhalt, hstore, hload⟩ : i ≠ .halt ∧ i.op ≠ .store ∧ i.op ≠ .load := by cases hI4 <;> simp [Instr.op]
  obtain ⟨hOut, hOutValid⟩ := he.output hload
  exact ⟨he.commonFrame hhalt, he.inValid hstore, hOut, hOutValid, he.cells_kept_by_dest (hI4.namesDest_iff s)⟩

/-- Settles O20: STORE touches IN_VALID alone of the latches, and of memory at most the cell its parameter names. -/
theorem storeFrame : Obligations.StoreFrame := by
  intro s t m1 hexec
  have he := exec_effect _ s t hexec
  obtain ⟨hOut, hOutValid⟩ := he.output (by simp [Instr.op])
  exact ⟨he.commonFrame (by simp), hOut, hOutValid, he.cells_kept_by_dest (store_namesDest_iff s m1)⟩

/-- Settles O21: LOAD, JIT, JIF and HALT have no destination, so no cell changes; HALT alone writes FSM without a fault. -/
theorem instructionsThatWriteNoCellFrame : Obligations.InstructionsThatWriteNoCellFrame := by
  intro s t m1 m2 i hi hexec
  have he := exec_effect i s t hexec
  have hnone : i.op.destParam = none := by rcases hi with rfl | rfl | rfl | rfl <;> rfl
  have hstore : i.op ≠ .store := fun h => by simp [h, Op.destParam] at hnone
  refine ⟨fun a => he.cell_kept fun ⟨k, hk, _⟩ => by simp [hnone] at hk, he.cfg_len.1, he.cfg_len.2, he.inLatch,
    he.inValid hstore, fun hne => he.output ?_, he.commonFrame, ?_⟩
  · rcases hi with rfl | rfl | rfl | rfl <;> simp [Instr.op] at hne ⊢
  · rintro rfl
    cases hexec
    exact ⟨rfl, rfl, rfl⟩

/-! ### The paths by which memory changes -/

/-- A step leaves memory as it was, or is the execution of the instruction it fetched. -/
theorem step_mem_cases {s t : State} (hst : step s = .next t) :
    t.mem = s.mem ∨ ∃ i, Fetches s i ∧ exec i s = .next t := by
  obtain ⟨-, ⟨-, rfl⟩ | ⟨-, r, -, rfl⟩ | ⟨-, i, hi, hexec, -⟩⟩ := step_cases s t hst
  · exact .inl rfl
  · exact .inl rfl
  · exact .inr ⟨i, (fetchDecode_ok_iff s i).mp hi, hexec⟩

/-- Settles O32: a step that changes memory is the execution of the fetched instruction, which changes only the cell its
destination parameter, the last one, names. -/
theorem stepChangesAtMostOneCell : Obligations.StepChangesAtMostOneCell := by
  intro s t hst
  rcases step_mem_cases hst with hm | ⟨i, hi, hexec⟩
  · exact .inl fun a => State.cell_congr s t a hm (step_keeps_cfg_len hst).2
  · have he := exec_effect i s t hexec
    by_cases hdest : ∃ d, NamesDest s i d
    · obtain ⟨d, hd⟩ := hdest
      obtain ⟨hop, hcell⟩ := (namesDest_iff s i d).mp hd
      refine .inr ⟨i, d, hi, hop, hcell, fun a ha => he.cell_kept fun h => ha ?_⟩
      exact Option.some.inj (((namesDest_iff s i a).mp h).2.symm.trans hcell)
    · exact .inl fun a => he.cell_kept fun h => hdest ⟨a, h⟩

/-- Settles O33: the effects of an instruction, of a step and of an accepted transaction, read for what they do to memory. -/
theorem onlyListedPathsChangeMemory : Obligations.OnlyListedPathsChangeMemory := by
  refine ⟨fun i s t hexec => ⟨fun hop => ?_, ?_⟩, fun s t hst => step_mem_cases hst, fun s t reply x h => ?_⟩
  · refine (exec_effect i s t hexec).mem_eq_of_no_dest fun d ⟨k, hk, _⟩ => ?_
    rcases hop with h | h | h | h <;> simp [h, Op.destParam] at hk
  · refine (exec_effect i s t hexec).mem_cases.imp_right fun ⟨d, v, hd, hin, hm⟩ => ?_
    exact ⟨d, v, ((namesDest_iff s i d).mp hd).2, hin, hm⟩
  · cases transact_accepted h with
    | loaded text vs hp => exact ⟨vs, hp, rfl, rfl⟩
    | wrote a v _ ha => exact ⟨ha, rfl⟩
    | inputSet => rfl
    | stepped _ hst => exact hst
    | ran _ _ hr => exact hr
    | observed _ hx =>
      cases x with
      | hostRead | view | getOutput | status => rfl
      | load | hostWrite | setInput | step | run => exact hx.elim

end Sys2Proof.Machine
end

section
/-!
PROOFS. A cell written by one step is what the next fetch there reads (20_memory R62).
-/

namespace Sys2Proof.Machine

theorem step_of_fetches {s : State} {i : Instr} (hf : s.fsm = .running) (hi : Fetches s i) : step s = exec i s := by
  obtain ⟨hlo, hhi⟩ := hi.pc_inMemory
  exact step_running s i (by omega) hf ((fetchDecode_ok_iff s i).mpr hi)

/-- A RUNNING core whose PC goes to the cell just written executes the word written there. -/
theorem step_withCell_withPc {s : State} {a w : Int} {j : Instr} (hwf : s.mem.wf) (hf : s.fsm = .running)
    (ha : InMemory s a) (hj : decode w = .ok j) :
    step ((s.withCell a w).withPc a) = exec j ((s.withCell a w).withPc a) :=
  step_of_fetches hf ⟨w, s.cell_withCell_same a w hwf ha, hj⟩

theorem exec_add_writes {s : State} {m1 m2 m3 : Mode} {a b d : Int} (ha : IsOperand s 1 m1 a) (hb : IsOperand s 2 m2 b)
    (hd : s.cell (s.pc + 3) = some d) (hin : InMemory s d) (hfit : FitsW s.cfg.W (a + b)) :
    exec (.add m1 m2 m3) s = .next ((s.withCell d (a + b)).withPc (s.pc + 4)) := by
  have hsum : aluAdd s.cfg a b = .ok (a + b) := (fitResult_ok_iff s.cfg _ _).mpr ⟨hfit, rfl⟩
  exact (commit_eq_next_iff s _ _).mpr (.inl ((stageI4_ok_iff ..).mpr ⟨a, b, d, a + b, ha, hb, hd, hsum, hin, rfl⟩))

theorem exec_store_writes {s : State} (m1 : Mode) {d : Int} (hv : s.inValid = true) (hd : s.cell (s.pc + 1) = some d)
    (hin : InMemory s d) :
    exec (.store m1) s = .next ((s.consumeInput.withCell d s.inLatch).withPc (s.pc + 2)) :=
  (commit_eq_next_iff s _ _).mpr (.inl ((stageStore_ok_iff ..).mpr ⟨d, hd, hv, hin, rfl⟩))

/-- Settles O34: both instructions answer a state whose PC is the cell they wrote. -/
theorem nextFetchSeesTheWrite : Obligations.NextFetchSeesTheWrite := by
  intro s j hwf hf
  constructor
  · intro m1 m2 m3 a b ha hb hd hin hfit hj
    exact ⟨_, exec_add_writes ha hb hd hin hfit, rfl, step_withCell_withPc hwf hf hin hj⟩
  · intro m1 hv hd hin hj
    exact ⟨_, exec_store_writes m1 hv hd hin, rfl, step_withCell_withPc (s := s.consumeInput) hwf hf hin hj⟩

end Sys2Proof.Machine
end

section
/-!
PROOFS. The decoder and the encoder. The decoder is said in three layers: which operation a word selects, the mode digits its
parameters are read from, and the lowest parameter whose digit is no mode. The encoder's word is the number those digits spell.
-/

namespace Sys2Proof

/-! ### The operation a word selects -/

theorem opOfCode_eq_some_iff (c : Nat) (op : Op) : opOfCode c = some op ↔ c = op.code := by
  constructor
  · intro h
    unfold opOfCode at h
    split at h <;> cases h <;> rfl
  · rintro rfl
    cases op <;> rfl

theorem exists_code_eq_iff (c : Nat) : (∃ op : Op, c = op.code) ↔ (1 ≤ c ∧ c ≤ 8) ∨ c = 99 := by
  constructor
  · rintro ⟨op, rfl⟩
    cases op <;> decide
  · rintro (⟨hlo, hhi⟩ | rfl)
    · interval_cases c
      exacts [⟨.add, rfl⟩, ⟨.mul, rfl⟩, ⟨.store, rfl⟩, ⟨.load, rfl⟩, ⟨.jit, rfl⟩, ⟨.jif, rfl⟩, ⟨.lt, rfl⟩,
        ⟨.eq, rfl⟩]
    · exact ⟨.halt, rfl⟩

/-- The word `w` is in range and its code is that of `op` (30_encoding R72, R73). -/
def Selects (w : Int) (op : Op) : Prop := 0 ≤ w ∧ w ≤ 99999 ∧ opOfCode (w.toNat % 100) = some op

theorem exists_selects_iff (w : Int) :
    (∃ op, Selects w op) ↔ 0 ≤ w ∧ w ≤ 99999 ∧ ((1 ≤ w % 100 ∧ w % 100 ≤ 8) ∨ w % 100 = 99) := by
  simp only [Selects, opOfCode_eq_some_iff, exists_and_left, exists_code_eq_iff]
  omega

theorem Selects.decode_eq {w : Int} {op : Op} (h : Selects w op) : decode w = decodeOp w.toNat op := by
  obtain ⟨hlo, hhi, hop⟩ := h
  have hrange : ¬ (w < 0 ∨ 99999 < w) := by omega
  simp [decode, hrange, hop]

theorem decode_eq_invalidOpcode_of_not_selects {w : Int} (h : ∀ op, ¬ Selects w op) : decode w = .error .invalidOpcode := by
  unfold decode
  split
  · rfl
  next hrange =>
    split
    · rfl
    next op hop => exact absurd ⟨by omega, by omega, hop⟩ (h op)

/-- Every answer of the decoder but InvalidOpcode is that of the selected operation's modes. -/
theorem decode_eq_iff_of_ne_invalidOpcode {w : Int} {r : Except DecodeFault Instr} (hr : r ≠ .error .invalidOpcode) :
    decode w = r ↔ ∃ op, Selects w op ∧ decodeOp w.toNat op = r := by
  constructor
  · intro h
    by_cases hsel : ∃ op, Selects w op
    · obtain ⟨op, hop⟩ := hsel
      exact ⟨op, hop, hop.decode_eq ▸ h⟩
    · exact absurd (h.symm.trans (decode_eq_invalidOpcode_of_not_selects (not_exists.mp hsel))) hr
  · rintro ⟨op, hop, rfl⟩
    exact hop.decode_eq

/-! ### Modes that are read -/

theorem digit_lt (n k : Nat) : digit n k < 10 := Nat.mod_lt _ (by decide)

theorem decodeMode_ok_iff (n : Nat) (k : Fin 4) (m : Mode) : decodeMode n k = .ok m ↔ digit n (k.val + 1) = m.digit := by
  unfold decodeMode
  split
  next h => rw [h]; cases m <;> simp [Mode.digit]
  next h => rw [h]; cases m <;> simp [Mode.digit]
  next d h0 h1 => cases m <;> simp_all [Mode.digit]

/-! The readers of one, two and three modes are chains of `decodeMode`. -/

theorem decodeModes1_eq_bind (n : Nat) (f : Mode → Instr) :
    decodeModes1 n f = decodeMode n 1 >>= fun m1 => .ok (f m1) := by
  unfold decodeModes1
  cases decodeMode n 1 <;> rfl

theorem decodeModes2_eq_bind (n : Nat) (f : Mode → Mode → Instr) :
    decodeModes2 n f = decodeMode n 1 >>= fun m1 => decodeMode n 2 >>= fun m2 => .ok (f m1 m2) := by
  unfold decodeModes2
  cases decodeMode n 1 with
  | error e => rfl
  | ok m1 => cases decodeMode n 2 <;> rfl

theorem decodeModes3_eq_bind (n : Nat) (f : Mode → Mode → Mode → Instr) :
    decodeModes3 n f =
      decodeMode n 1 >>= fun m1 => decodeMode n 2 >>= fun m2 => decodeMode n 3 >>= fun m3 => .ok (f m1 m2 m3) := by
  unfold decodeModes3
  cases decodeMode n 1 with
  | error e => rfl
  | ok m1 =>
    cases decodeMode n 2 with
    | error e => rfl
    | ok m2 => cases decodeMode n 3 <;> rfl

theorem decodeMode_bind_ok_iff (n : Nat) (k : Fin 4) (rest : Mode → Except DecodeFault Instr) (i : Instr) :
    (decodeMode n k >>= rest) = .ok i ↔ ∃ m, digit n (k.val + 1) = m.digit ∧ rest m = .ok i := by
  simp only [← decodeMode_ok_iff]
  cases decodeMode n k <;> simp [bind, Except.bind]

theorem decodeModes1_ok_iff (n : Nat) (f : Mode → Instr) (i : Instr) :
    decodeModes1 n f = .ok i ↔ ∃ m1, digit n 2 = m1.digit ∧ f m1 = i := by
  simp [decodeModes1_eq_bind, decodeMode_bind_ok_iff]

theorem decodeModes2_ok_iff (n : Nat) (f : Mode → Mode → Instr) (i : Instr) :
    decodeModes2 n f = .ok i ↔ ∃ m1, digit n 2 = m1.digit ∧ ∃ m2, digit n 3 = m2.digit ∧ f m1 m2 = i := by
  simp [decodeModes2_eq_bind, decodeMode_bind_ok_iff]

theorem decodeModes3_ok_iff (n : Nat) (f : Mode → Mode → Mode → Instr) (i : Instr) :
    decodeModes3 n f = .ok i ↔
      ∃ m1, digit n 2 = m1.digit ∧ ∃ m2, digit n 3 = m2.digit ∧ ∃ m3, digit n 4 = m3.digit ∧ f m1 m2 m3 = i := by
  simp [decodeModes3_eq_bind, decodeMode_bind_ok_iff]

/-- The digits of `n` from digit `k` on are those of the modes `ms` (30_encoding R71). -/
def SpellsModes (n : Nat) : Nat → List Mode → Prop
  | _, [] => True
  | k, m :: ms => digit n k = m.digit ∧ SpellsModes n (k + 1) ms

/-- The decoder reads an instruction of the selected operation off a word that spells its modes from digit 2 on. -/
theorem decodeOp_ok_iff (n : Nat) (op : Op) (i : Instr) :
    decodeOp n op = .ok i ↔ i.op = op ∧ SpellsModes n 2 i.modes := by
  constructor
  · intro h
    cases op with
    | add | mul | lt | eq =>
      obtain ⟨m1, h1, m2, h2, m3, h3, rfl⟩ := (decodeModes3_ok_iff n _ i).mp h
      exact ⟨rfl, h1, h2, h3, trivial⟩
    | jit | jif =>
      obtain ⟨m1, h1, m2, h2, rfl⟩ := (decodeModes2_ok_iff n _ i).mp h
      exact ⟨rfl, h1, h2, trivial⟩
    | store | load =>
      obtain ⟨m1, h1, rfl⟩ := (decodeModes1_ok_iff n _ i).mp h
      exact ⟨rfl, h1, trivial⟩
    | halt =>
      cases h
      exact ⟨rfl, trivial⟩
  · rintro ⟨rfl, hs⟩
    cases i with
    | add m1 m2 m3 | mul m1 m2 m3 | lt m1 m2 m3 | eq m1 m2 m3 =>
      obtain ⟨h1, h2, h3, -⟩ := hs
      exact (decodeModes3_ok_iff n _ _).mpr ⟨m1, h1, m2, h2, m3, h3, rfl⟩
    | jit m1 m2 | jif m1 m2 =>
      obtain ⟨h1, h2, -⟩ := hs
      exact (decodeModes2_ok_iff n _ _).mpr ⟨m1, h1, m2, h2, rfl⟩
    | store m1 | load m1 =>
      obtain ⟨h1, -⟩ := hs
      exact (decodeModes1_ok_iff n _ _).mpr ⟨m1, h1, rfl⟩
    | halt => rfl

theorem decode_ok_iff (w : Int) (i : Instr) : decode w = .ok i ↔ Selects w i.op ∧ SpellsModes w.toNat 2 i.modes := by
  rw [decode_eq_iff_of_ne_invalidOpcode (by simp)]
  simp only [decodeOp_ok_iff]
  constructor
  · rintro ⟨op, hsel, rfl, hs⟩
    exact ⟨hsel, hs⟩
  · rintro ⟨hsel, hs⟩
    exact ⟨i.op, hsel, rfl, hs⟩

/-! ### The canonical word -/

theorem Mode.digit_lt (m : Mode) : m.digit < 10 := by cases m <;> decide

theorem Op.code_lt (op : Op) : op.code < 100 := by cases op <;> decide

theorem encodeModes_eq_mul (weight : Nat) (ms : List Mode) : encodeModes weight ms = weight * encodeModes 1 ms := by
  induction ms generalizing weight with
  | nil => rfl
  | cons m ms ih =>
    simp only [encodeModes]
    rw [ih (10 * weight), ih (10 * 1)]
    ring

theorem spellsModes_iff (n k : Nat) (ms : List Mode) :
    SpellsModes n k ms ↔ n / 10 ^ k % 10 ^ ms.length = encodeModes 1 ms := by
  induction ms generalizing k with
  | nil => simp [SpellsModes, encodeModes, Nat.mod_one]
  | cons m ms ih =>
    have hm := m.digit_lt
    have hsplit : n / 10 ^ k % 10 ^ (ms.length + 1) = digit n k + 10 * (n / 10 ^ (k + 1) % 10 ^ ms.length) := by
      rw [pow_succ', Nat.mod_mul, pow_succ, ← Nat.div_div_eq_div_mul, digit]
    have hdigit := digit_lt n k
    rw [SpellsModes, ih, List.length_cons, hsplit, encodeModes, encodeModes_eq_mul (10 * 1)]
    omega

theorem Instr.modes_length (i : Instr) : i.modes.length + 1 = i.length := by cases i <;> rfl

/-- A word decodes to `i` exactly when it is in range and its low `L + 1` digits are the canonical word of `i`. -/
theorem decode_ok_iff_mod (w : Int) (i : Instr) :
    decode w = .ok i ↔ 0 ≤ w ∧ w ≤ 99999 ∧ w.toNat % 10 ^ (i.length + 1) = encodeNat i := by
  have hcode := i.op.code_lt
  rw [decode_ok_iff, Selects, opOfCode_eq_some_iff, spellsModes_iff, encodeNat, encodeModes_eq_mul 100, ← i.modes_length,
    show i.modes.length + 1 + 1 = 2 + i.modes.length from by omega, pow_add, Nat.mod_mul]
  norm_num only
  omega

theorem encodeModes_one_lt (ms : List Mode) : encodeModes 1 ms < 10 ^ ms.length := by
  induction ms with
  | nil => simp [encodeModes]
  | cons m ms ih =>
    have hm := m.digit_lt
    rw [encodeModes, encodeModes_eq_mul (10 * 1), List.length_cons, pow_succ]
    omega

theorem encodeNat_lt (i : Instr) : encodeNat i < 10 ^ (i.length + 1) := by
  have hcode := i.op.code_lt
  have hmodes := encodeModes_one_lt i.modes
  rw [encodeNat, encodeModes_eq_mul 100, ← i.modes_length, pow_add, pow_succ]
  omega

/-- Settles O2: the digits that are read are the remainder by `10^(L+1)`, and the ignored ones are the quotient, which the
range of a word bounds. -/
theorem decodeIsCanonicalWordPlusIgnoredDigits : Obligations.DecodeIsCanonicalWordPlusIgnoredDigits := by
  intro w i
  rw [decode_ok_iff_mod, encode]
  have hlength : i.length ≤ 4 := by unfold Instr.length; cases i.op <;> decide
  have hrange : 10 ^ (i.length + 1) * 10 ^ (4 - i.length) = 99999 + 1 := by
    rw [← pow_add, show i.length + 1 + (4 - i.length) = 5 from by omega]
    norm_num
  constructor
  · rintro ⟨hlo, hhi, hmod⟩
    lift w to Nat using hlo
    rw [Int.toNat_natCast] at hmod
    refine ⟨w / 10 ^ (i.length + 1), Nat.div_lt_of_lt_mul (by omega), ?_⟩
    rw [← hmod]
    exact_mod_cast (Nat.mod_add_div w _).symm
  · rintro ⟨x, hx, hw⟩
    obtain rfl : w = ((encodeNat i + 10 ^ (i.length + 1) * x : Nat) : Int) := by exact_mod_cast hw
    have hlt := encodeNat_lt i
    have hbound : 10 ^ (i.length + 1) * (x + 1) ≤ 99999 + 1 := hrange ▸ Nat.mul_le_mul_left _ hx
    rw [mul_add] at hbound
    refine ⟨by omega, by omega, ?_⟩
    rw [Int.toNat_natCast, Nat.add_mul_mod_self_left, Nat.mod_eq_of_lt hlt]

theorem decode_encode (i : Instr) : decode (encode i) = .ok i :=
  (decodeIsCanonicalWordPlusIgnoredDigits (encode i) i).mpr ⟨0, Nat.pow_pos (by decide), by simp⟩

/-! ### Modes that are refused -/

/-- The parameters below `L` have digits 0 and 1. -/
def ModesBelow (n L : Nat) : Prop := ∀ q, 1 ≤ q → q < L → digit n (q + 1) ≤ 1

/-- Of the parameters below `L`, `p` is the lowest whose digit is no mode, and that digit is `d` (30_encoding R76). -/
def LowestInvalid (n L : Nat) (p : Fin 4) (d : Fin 16) : Prop :=
  1 ≤ p.val ∧ p.val < L ∧ digit n (p.val + 1) = d.val ∧ 2 ≤ d.val ∧ ModesBelow n p.val

theorem modesBelow_one (n : Nat) : ModesBelow n 1 := fun q _ _ => by omega

theorem ModesBelow.succ {n k : Nat} (h : ModesBelow n k) (hk : digit n (k + 1) ≤ 1) : ModesBelow n (k + 1) := by
  intro q hq hlt
  rcases Nat.lt_succ_iff_lt_or_eq.mp hlt with hlt | rfl
  · exact h q hq hlt
  · exact hk

theorem LowestInvalid.unique {n L : Nat} {p p' : Fin 4} {d d' : Fin 16} (h : LowestInvalid n L p d)
    (h' : LowestInvalid n L p' d') : p = p' ∧ d = d' := by
  obtain ⟨hp, -, hdigit, hd, hbelow⟩ := h
  obtain ⟨hp', -, hdigit', hd', hbelow'⟩ := h'
  have hle : ¬ p.val < p'.val := fun hlt => by have := hbelow' p.val hp hlt; omega
  have hge : ¬ p'.val < p.val := fun hlt => by have := hbelow p'.val hp' hlt; omega
  obtain rfl : p = p' := Fin.ext (by omega)
  exact ⟨rfl, Fin.ext (hdigit.symm.trans hdigit')⟩

theorem LowestInvalid.not_modesBelow {n L : Nat} {p : Fin 4} {d : Fin 16} (h : LowestInvalid n L p d) : ¬ ModesBelow n L := by
  obtain ⟨hp, hL, hdigit, hd, -⟩ := h
  intro hbelow
  have := hbelow p.val hp hL
  omega

/-- A mode digit is 0 or 1, or it is refused by name. -/
theorem decodeMode_cases (n : Nat) (k : Fin 4) :
    ((∃ m, decodeMode n k = .ok m) ∧ digit n (k.val + 1) ≤ 1) ∨
    ∃ d : Fin 16, digit n (k.val + 1) = d.val ∧ 2 ≤ d.val ∧ decodeMode n k = .error (.invalidAddressingMode k d) := by
  have hlt := digit_lt n (k.val + 1)
  unfold decodeMode
  split
  next h => exact .inl ⟨⟨_, rfl⟩, by omega⟩
  next h => exact .inl ⟨⟨_, rfl⟩, by omega⟩
  next h0 h1 =>
    rw [imp_false] at h0 h1
    have hval : (Fin.ofNat 16 (digit n (k.val + 1))).val = digit n (k.val + 1) := Nat.mod_eq_of_lt (by omega)
    exact .inr ⟨_, hval.symm, by omega, rfl⟩

/-- `r` answers an instruction where every parameter below `L` has a mode, and else names the lowest that has none. -/
def ReadsModes (n L : Nat) (r : Except DecodeFault Instr) : Prop :=
  ((∃ i, r = .ok i) ∧ ModesBelow n L) ∨ ∃ p d, LowestInvalid n L p d ∧ r = .error (.invalidAddressingMode p d)

/-- Reading the mode of parameter `k` first and going on only if it is one: the shape the decoder's readers share. -/
theorem ReadsModes.bind {n L : Nat} {k : Fin 4} {rest : Mode → Except DecodeFault Instr} (hk : 1 ≤ k.val) (hL : k.val < L)
    (hbelow : ModesBelow n k.val) (hrest : ∀ m, ModesBelow n (k.val + 1) → ReadsModes n L (rest m)) :
    ReadsModes n L (decodeMode n k >>= rest) := by
  rcases decodeMode_cases n k with ⟨⟨m, hm⟩, hdigit⟩ | ⟨d, hdigit, hd, herr⟩
  · rw [hm]
    exact hrest m (hbelow.succ hdigit)
  · rw [herr]
    exact .inr ⟨k, d, ⟨hk, hL, hdigit, hd, hbelow⟩, rfl⟩

theorem ReadsModes.ok {n L : Nat} (i : Instr) (h : ModesBelow n L) : ReadsModes n L (.ok i) := .inl ⟨⟨i, rfl⟩, h⟩

theorem decodeModes1_readsModes (n : Nat) (f : Mode → Instr) : ReadsModes n 2 (decodeModes1 n f) := by
  rw [decodeModes1_eq_bind]
  exact .bind (by decide) (by decide) (modesBelow_one n) fun m1 h1 => .ok (f m1) h1

theorem decodeModes2_readsModes (n : Nat) (f : Mode → Mode → Instr) : ReadsModes n 3 (decodeModes2 n f) := by
  rw [decodeModes2_eq_bind]
  exact .bind (by decide) (by decide) (modesBelow_one n) fun m1 h1 =>
    .bind (by decide) (by decide) h1 fun m2 h2 => .ok (f m1 m2) h2

theorem decodeModes3_readsModes (n : Nat) (f : Mode → Mode → Mode → Instr) : ReadsModes n 4 (decodeModes3 n f) := by
  rw [decodeModes3_eq_bind]
  exact .bind (by decide) (by decide) (modesBelow_one n) fun m1 h1 =>
    .bind (by decide) (by decide) h1 fun m2 h2 =>
      .bind (by decide) (by decide) h2 fun m3 h3 => .ok (f m1 m2 m3) h3

theorem decodeOp_readsModes (n : Nat) (op : Op) : ReadsModes n op.length (decodeOp n op) := by
  cases op with
  | add | mul | lt | eq => exact decodeModes3_readsModes n _
  | jit | jif => exact decodeModes2_readsModes n _
  | store | load => exact decodeModes1_readsModes n _
  | halt => exact .ok .halt (modesBelow_one n)

theorem decodeOp_ne_invalidOpcode (n : Nat) (op : Op) : decodeOp n op ≠ .error .invalidOpcode := by
  rcases decodeOp_readsModes n op with ⟨⟨i, hi⟩, -⟩ | ⟨p, d, -, herr⟩ <;> simp_all

theorem decodeOp_error_iff (n : Nat) (op : Op) (p : Fin 4) (d : Fin 16) :
    decodeOp n op = .error (.invalidAddressingMode p d) ↔ LowestInvalid n op.length p d := by
  rcases decodeOp_readsModes n op with ⟨⟨i, hi⟩, hmodes⟩ | ⟨p', d', hlow, herr⟩
  · simpa [hi] using fun h : LowestInvalid n op.length p d => h.not_modesBelow hmodes
  · rw [herr]
    constructor
    · rintro ⟨⟩
      exact hlow
    · intro h
      obtain ⟨rfl, rfl⟩ := h.unique hlow
      rfl

/-- Settles O3: a word that selects an operation is never answered InvalidOpcode, and every other word is. -/
theorem invalidOpcodeExactlyOnUnmappedWords : Obligations.InvalidOpcodeExactlyOnUnmappedWords := by
  intro w
  have hsel : decode w = .error .invalidOpcode ↔ ¬ ∃ op, Selects w op :=
    ⟨fun h ⟨op, hop⟩ => decodeOp_ne_invalidOpcode w.toNat op (hop.decode_eq ▸ h),
      fun h => decode_eq_invalidOpcode_of_not_selects (not_exists.mp h)⟩
  rw [hsel, exists_selects_iff]
  omega

/-- Settles O4: the refusal of a mode is that of the selected operation, whose parameters are read lowest first. -/
theorem invalidModeNamesLowestParameter : Obligations.InvalidModeNamesLowestParameter := by
  intro w p d
  rw [decode_eq_iff_of_ne_invalidOpcode (by simp)]
  simp only [decodeOp_error_iff, Selects, and_assoc, exists_and_left]
  rfl

theorem modesChecked (op : Op) : Machine.ModesChecked op := by
  intro n hn hop k hk hL hdigit
  have hsel : Selects (n : Int) op := ⟨by omega, by omega, hop⟩
  rw [hsel.decode_eq]
  rcases decodeOp_readsModes n op with ⟨-, hmodes⟩ | ⟨p, d, -, herr⟩
  · have := hmodes k hk hL
    omega
  · exact ⟨p, d, herr⟩

/-- Settles O1: the ten words are evaluated. -/
theorem specWordsDecode : Obligations.SpecWordsDecode := by
  unfold Obligations.SpecWordsDecode
  decide

end Sys2Proof
end

section
/-!
PROOFS. What the resolver answers, an instruction placed at PC read back, and the pseudo-instructions of the assembler
executed from the cells they assemble to.
-/

namespace Sys2Proof.Machine

/-! ### The resolver -/

/-- Settles O9: the two answers of the resolver, read off memory as `IsOperand` and `OperandFault` say. -/
theorem resolverSelectsByMode : Obligations.ResolverSelectsByMode := by
  intro s k raw m
  constructor
  · intro hraw
    refine ⟨?_, fun v hv => ?_, fun hnone => ?_, (destOperand_ok_iff s k raw m).mpr hraw⟩
    · exact (srcOperand_ok_iff s k raw .immediate).mpr ⟨raw, hraw, rfl⟩
    · exact (srcOperand_ok_iff s k v .position).mpr ⟨raw, hraw, hv⟩
    · exact (srcOperand_error_iff s k .position _).mpr (.inr ⟨rfl, raw, hraw, hnone, rfl⟩)
  · intro hnone
    exact ⟨(srcOperand_error_iff s k m _).mpr (.inl ⟨hnone, rfl⟩), (destOperand_error_iff s k m _).mpr ⟨hnone, rfl⟩⟩

/-- Settles O5: the resolver of a destination does not look at the mode, and the decoder checks the destination's digit as any
other parameter's. -/
theorem destinationModeIsCheckedNotApplied : Obligations.DestinationModeIsCheckedNotApplied := by
  refine ⟨fun m1 m2 s => ⟨rfl, rfl, rfl, rfl, rfl⟩, fun s k raw m hraw => (destOperand_ok_iff s k raw m).mpr hraw, ?_⟩
  intro w op p hw hop hp hdigit
  obtain ⟨hwrites, hlast⟩ := (Op.destParam_eq_some_iff op p).mp hp
  have hlength : 2 ≤ op.length := by rcases hwrites with rfl | rfl | rfl | rfl | rfl <;> decide
  exact modesChecked op w hw hop p (by omega) (by omega) hdigit

/-! ### An instruction standing at PC -/

/-- The cells from PC on hold `cells`. -/
def HoldsAtPc (s : State) (cells : List Int) : Prop :=
  ∀ k : Nat, k < cells.length → s.cell (s.pc + k) = cells[k]?

theorem HoldsAtPc.cell {s : State} {cells : List Int} (h : HoldsAtPc s cells) {k : Nat} {v : Int} (hv : cells[k]? = some v) :
    s.cell (s.pc + k) = some v :=
  (h k (List.getElem?_eq_some_iff.mp hv).1).trans hv

theorem HoldsAtPc.fetches {s : State} {i : Instr} {params : List Int} (h : HoldsAtPc s (encode i :: params)) : Fetches s i :=
  ⟨encode i, by simpa using h.cell (k := 0) rfl, decode_encode i⟩

/-- Settles O6: the canonical word decodes to the instruction, and its parameters are the cells after it. -/
theorem placedInstructionIsReadBack : Obligations.PlacedInstructionIsReadBack := by
  intro s p _ hcells
  have hp : HoldsAtPc s (encode p.instr :: p.params) := hcells
  refine ⟨(fetchDecode_ok_iff s p.instr).mpr hp.fetches, fun k m hk => ⟨p.params[k], List.getElem?_eq_getElem hk, ?_⟩⟩
  have hraw : s.cell (s.pc + (k + 1)) = some p.params[k] := by
    exact_mod_cast hp.cell (k := k + 1) (List.getElem?_eq_getElem hk)
  exact ⟨(destOperand_ok_iff s _ _ m).mpr hraw, (srcOperand_ok_iff s _ _ _).mpr ⟨_, hraw, rfl⟩⟩

/-! ### The pseudo-instructions -/

/-- Assembled cells are the values of the numbers, place by place. -/
theorem valuesOf_getElem? {program : List AsmLine} {ns : List AsmNumber} {cells : List Int}
    (h : valuesOf program ns = some cells) (k : Nat) : cells[k]? = ns[k]?.bind (·.value program) := by
  induction ns generalizing cells k with
  | nil =>
    cases h
    rfl
  | cons n ns ih =>
    rw [valuesOf] at h
    cases hn : n.value program with
    | none => simp [hn] at h
    | some v =>
      simp only [hn, Option.map_eq_some_iff] at h
      obtain ⟨vs, hvs, rfl⟩ := h
      cases k with
      | zero => simp [hn]
      | succ k => simpa using ih hvs k

theorem HoldsAtPc.cell_of_number {s : State} {program : List AsmLine} {ns : List AsmNumber} {cells : List Int}
    (h : HoldsAtPc s cells) (hcells : valuesOf program ns = some cells) {k : Nat} {n : AsmNumber} {v : Int}
    (hn : ns[k]? = some n) (hv : n.value program = some v) : s.cell (s.pc + k) = some v :=
  h.cell (by rw [valuesOf_getElem? hcells, hn, Option.bind_some, hv])

theorem HoldsAtPc.fetches_line {s : State} {program : List AsmLine} {l : AsmLine} {cells : List Int} {i : Instr}
    {ns : List AsmNumber} (h : HoldsAtPc s cells) (hcells : valuesOf program l.numbers = some cells)
    (hl : l.instr = some (i, ns)) : Fetches s i := by
  have hword : l.numbers[0]? = some (.literal (encode i)) := by cases l <;> cases hl <;> rfl
  exact ⟨encode i, by simpa using h.cell_of_number hcells hword rfl, decode_encode i⟩

/-- What an operand of a line stands for is what the resolver reads where the cell of its number stands. -/
theorem AsmOperand.Gives.isOperand {o : AsmOperand} {program : List AsmLine} {s : State} {k v : Int}
    (h : o.Gives program s v) (hcell : ∀ n, o.number.value program = some n → s.cell (s.pc + k) = some n) :
    IsOperand s k o.mode v := by
  obtain ⟨n, hn, hv⟩ := h
  exact ⟨n, hcell n hn, hv⟩

theorem exec_jit_eq {s : State} {m1 m2 : Mode} {c target : Int} (hc : IsOperand s 1 m1 c) (ht : IsOperand s 2 m2 target) :
    exec (.jit m1 m2) s = .next (s.withPc (if c ≠ 0 then target else s.pc + 3)) :=
  (commit_eq_next_iff s _ _).mpr (.inl ((stageI3_ok_iff ..).mpr ⟨c, target, hc, ht, by simp⟩))

theorem exec_jif_eq {s : State} {m1 m2 : Mode} {c target : Int} (hc : IsOperand s 1 m1 c) (ht : IsOperand s 2 m2 target) :
    exec (.jif m1 m2) s = .next (s.withPc (if c = 0 then target else s.pc + 3)) :=
  (commit_eq_next_iff s _ _).mpr (.inl ((stageI3_ok_iff ..).mpr ⟨c, target, hc, ht, by simp⟩))

theorem wrote_withCell_withPc {s : State} (hwf : s.mem.wf) {d : Int} (hin : InMemory s d) (v L : Int) :
    Wrote s ((s.withCell d v).withPc (s.pc + L)) d v L where
  written := s.cell_withCell_same d v hwf hin
  others a ha := s.cell_withCell_other d a v hin.1 ha
  pc := rfl
  cfg := rfl
  len := rfl
  fsm := rfl
  inLatch := rfl
  outLatch := rfl
  outValid := rfl
  fault := rfl

/-- Settles O51: JMP is a jump whose condition is the immediate 1, NOP one that the immediate 1 does not take, and MOV adds the
immediate 0. -/
theorem pseudoInstructionsAct : Obligations.PseudoInstructionsAct := by
  intro s program l cells hwf hf hcells hat
  have hat : HoldsAtPc s cells := hat
  refine ⟨?_, ?_, ?_⟩
  · rintro o target rfl ho
    have hcond : IsOperand s 1 .immediate 1 := ⟨1, hat.cell_of_number (k := 1) hcells rfl rfl, rfl⟩
    have htarget : IsOperand s 2 o.mode target := ho.isOperand fun n hn => hat.cell_of_number (k := 2) hcells rfl hn
    rw [step_of_fetches hf (hat.fetches_line hcells rfl), exec_jit_eq hcond htarget]
    rfl
  · rintro rfl
    have hcond : IsOperand s 1 .immediate 1 := ⟨1, hat.cell_of_number (k := 1) hcells rfl rfl, rfl⟩
    have htarget : IsOperand s 2 .immediate 0 := ⟨0, hat.cell_of_number (k := 2) hcells rfl rfl, rfl⟩
    rw [step_of_fetches hf (hat.fetches_line hcells rfl), exec_jif_eq hcond htarget]
    rfl
  · rintro o dest v d rfl ho hd hfit hin
    have hsrc : IsOperand s 1 o.mode v := ho.isOperand fun n hn => hat.cell_of_number (k := 1) hcells rfl hn
    have hzero : IsOperand s 2 .immediate 0 := ⟨0, hat.cell_of_number (k := 2) hcells rfl rfl, rfl⟩
    have hdest : s.cell (s.pc + 3) = some d := hat.cell_of_number (k := 3) hcells rfl hd
    refine ⟨_, (step_of_fetches hf (hat.fetches_line hcells rfl)).trans
      (exec_add_writes hsrc hzero hdest hin ((add_zero v).symm ▸ hfit)), ?_⟩
    rw [add_zero]
    exact wrote_withCell_withPc hwf hin v 4

end Sys2Proof.Machine
end

section
/-!
PROOFS. The step by what PC names and FSM is: execution of the fetched instruction, fault entry, or no change; and where PC goes.
-/

namespace Sys2Proof

theorem Op.length_le_four (op : Op) : op.length ≤ 4 := by cases op <;> decide

end Sys2Proof

namespace Sys2Proof.Machine

/-! ### What a step answers -/

/-- Settles O26: a cell at PC means the core is loaded, and then fetch and decode answer the instruction. -/
theorem stepRunsTheDecodedInstruction : Obligations.StepRunsTheDecodedInstruction :=
  fun _ _ => step_of_fetches

/-- Settles O27: only RUNNING has a step to take. -/
theorem terminalStatesAreKept : Obligations.TerminalStatesAreKept := by
  intro s hl hf
  exact step_not_running s hl (by rcases hf with h | h <;> simp [h])

/-- Fault entry of a fetch that finds no cell at PC. -/
theorem enterFault_fetch {s : State} (h : s.cell s.pc = none) :
    enterFault s (.outOfBounds .fetch s.pc) = { s with
      fsm := .faulted
      fault := { code := .outOfBounds, pc := s.pc, word := 0, addr := s.pc, kind := .fetch, param := 0, digit := 0 } } := by
  rw [enterFault, State.wordAtPc_of_cell_eq_none h]
  rfl

/-- Settles O23: outside `[0, LEN)` PC names no cell, so the fetch raises, and the word recorded is 0. -/
theorem fetchOutsideMemoryTraps : Obligations.FetchOutsideMemoryTraps := by
  intro s hl hf hpc
  have hnone : s.cell s.pc = none := (s.cell_eq_none_iff s.pc).mpr fun ⟨hlo, hhi⟩ => by omega
  rw [step_running_error s _ hl hf ((fetchDecode_error_iff s _).mpr (.inl ⟨hnone, rfl⟩)), enterFault_fetch hnone]

theorem step_of_decode_error {s : State} {w : Int} {e : DecodeFault} (hf : s.fsm = .running) (hw : s.cell s.pc = some w)
    (he : decode w = .error e) : step s = .next (enterFault s (raiseOfDecode e)) := by
  obtain ⟨⟨hlo, hhi⟩, -⟩ := (s.cell_eq_some_iff s.pc w).mp hw
  exact step_running_error s _ (by omega) hf ((fetchDecode_error_iff s _).mpr (.inr ⟨w, e, hw, he, rfl⟩))

/-- Settles O24: the decoder's refusal is raised before the instruction's own resolve begins. -/
theorem undecodableWordTraps : Obligations.UndecodableWordTraps :=
  fun _ _ hf hw => ⟨fun he => step_of_decode_error hf hw he, fun _ _ he => step_of_decode_error hf hw he⟩

/-- Settles O29: a loaded core answers a next state, and what a step to a next state was says which. -/
theorem loadedCoreAlwaysSteps : Obligations.LoadedCoreAlwaysSteps := by
  intro s hl
  obtain ⟨t, hst⟩ := step_total s hl
  refine ⟨t, hst, (step_keeps_cfg_len hst).2 ▸ hl, ?_⟩
  obtain ⟨-, ⟨hf, rfl⟩ | ⟨hf, r, hr, rfl⟩ | ⟨hf, i, hi, hexec, -⟩⟩ := step_cases s t hst
  · exact ⟨fun _ => rfl, fun h => absurd h hf⟩
  · refine ⟨fun h => absurd hf h, fun _ => .inr ?_⟩
    rcases (fetchDecode_error_iff s r).mp hr with ⟨hnone, rfl⟩ | ⟨w, e, hw, he, rfl⟩
    · exact .inl ⟨hnone, rfl⟩
    · exact .inr ⟨w, e, hw, he, rfl⟩
  · exact ⟨fun h => absurd hf h, fun _ => .inl ⟨i, (fetchDecode_ok_iff s i).mp hi, hexec⟩⟩

/-! ### The next PC -/

/-- An instruction that neither jumps, halts nor faults goes on to the next one. -/
theorem Effect.pc_eq_add_length {s t : State} {i : Instr} (he : Effect s i t) (hf : t.fsm ≠ .faulted)
    (hi : i.op ≠ .jit ∧ i.op ≠ .jif ∧ i.op ≠ .halt) : t.pc = s.pc + (i.length : Int) := by
  obtain ⟨hjit, hjif, hhalt⟩ := hi
  cases he with
  | raised => exact absurd rfl hf
  | wrote _ _ _ _ _ _ hI4 => cases hI4 <;> rfl
  | stored | loaded => rfl
  | jumped _ _ _ _ hjump =>
    rcases hjump with rfl | rfl
    · exact absurd rfl hjit
    · exact absurd rfl hjif
  | halted => exact absurd rfl hhalt

/-- A jump that does not fault has resolved its condition and its target. -/
theorem pc_of_stageI3 {s t : State} {m1 m2 : Mode} {taken : Int → Bool} (h : commit s (stageI3 s m1 m2 taken) = .next t)
    (hf : t.fsm ≠ .faulted) :
    ∃ c target, IsOperand s 1 m1 c ∧ IsOperand s 2 m2 target ∧ t.pc = if taken c then target else s.pc + 3 := by
  rcases (commit_eq_next_iff s t _).mp h with hok | ⟨r, -, rfl⟩
  · obtain ⟨c, target, hc, ht, rfl⟩ := (stageI3_ok_iff s t m1 m2 taken).mp hok
    exact ⟨c, target, hc, ht, rfl⟩
  · exact absurd rfl hf

/-- Settles O31: the fetched instruction stands inside memory, so the capacity limit of R5 leaves room for PC + L; the rest is
the effect of the instruction, by its operation. -/
theorem nextPcIsLengthOrTarget : Obligations.NextPcIsLengthOrTarget := by
  intro s t i hwf hf hi hst hnf
  have hexec : exec i s = .next t := step_of_fetches hf hi ▸ hst
  have he := exec_effect i s t hexec
  have hlength : i.length ≤ 4 := i.op.length_le_four
  refine ⟨hwf.pc_add_fits hi.pc_inMemory (by omega) (by omega), ?_⟩
  cases i with
  | add | mul | lt | eq | store | load => exact he.pc_eq_add_length hnf (by simp [Instr.op])
  | jit m1 m2 => simpa using pc_of_stageI3 hexec hnf
  | jif m1 m2 => simpa using pc_of_stageI3 hexec hnf
  | halt =>
    cases hexec
    rfl

end Sys2Proof.Machine
end

section
/-!
PROOFS. A step reads none of OUT, OUT_VALID and FAULT (40_cycle R107): every stage but LOAD's commutes with replacing them, and
LOAD's writes the output it read from memory.
-/

namespace Sys2Proof.Machine

/-- `s` with the parts of the state that no step reads taken from `u`. -/
def State.withUnreadOf (s u : State) : State :=
  { s with outLatch := u.outLatch, outValid := u.outValid, fault := u.fault }

/-- Two states that agree on all that a step reads differ in the unread parts alone. -/
theorem State.eq_withUnreadOf {s₁ s₂ : State} (hcfg : s₁.cfg = s₂.cfg) (hmem : s₁.mem = s₂.mem) (hlen : s₁.len = s₂.len)
    (hpc : s₁.pc = s₂.pc) (hfsm : s₁.fsm = s₂.fsm) (hin : s₁.inLatch = s₂.inLatch) (hvalid : s₁.inValid = s₂.inValid) :
    s₂ = s₁.withUnreadOf s₂ := by
  simp only [State.withUnreadOf, hcfg, hmem, hlen, hpc, hfsm, hin, hvalid]

/-! ### The stages -/

/-- The stage commutes with replacing the unread parts of the state. -/
def IgnoresUnread (stage : State → Except Raise State) : Prop :=
  ∀ s u : State, stage (s.withUnreadOf u) = (stage s).map (·.withUnreadOf u)

theorem stageI4_ignoresUnread (m1 m2 m3 : Mode) (result : Config → Int → Int → Except Raise Int) :
    IgnoresUnread fun s => stageI4 s m1 m2 m3 (result s.cfg) := by
  intro s u
  beta_reduce
  cases h : stageI4 s m1 m2 m3 (result s.cfg) with
  | error r => exact (stageI4_error_iff (s.withUnreadOf u) ..).mpr ((stageI4_error_iff s ..).mp h)
  | ok t =>
    obtain ⟨a, b, d, v, ha, hb, hd, hv, hin, rfl⟩ := (stageI4_ok_iff s ..).mp h
    exact (stageI4_ok_iff (s.withUnreadOf u) ..).mpr ⟨a, b, d, v, ha, hb, hd, hv, hin, rfl⟩

theorem stageI3_ignoresUnread (m1 m2 : Mode) (taken : Int → Bool) : IgnoresUnread fun s => stageI3 s m1 m2 taken := by
  intro s u
  beta_reduce
  cases h : stageI3 s m1 m2 taken with
  | error r => exact (stageI3_error_iff (s.withUnreadOf u) ..).mpr ((stageI3_error_iff s ..).mp h)
  | ok t =>
    obtain ⟨c, target, hc, ht, rfl⟩ := (stageI3_ok_iff s ..).mp h
    exact (stageI3_ok_iff (s.withUnreadOf u) ..).mpr ⟨c, target, hc, ht, rfl⟩

theorem stageStore_ignoresUnread (m1 : Mode) : IgnoresUnread fun s => stageStore s m1 := by
  intro s u
  beta_reduce
  cases h : stageStore s m1 with
  | error r => exact (stageStore_error_iff (s.withUnreadOf u) ..).mpr ((stageStore_error_iff s ..).mp h)
  | ok t =>
    obtain ⟨d, hd, hv, hin, rfl⟩ := (stageStore_ok_iff s ..).mp h
    exact (stageStore_ok_iff (s.withUnreadOf u) ..).mpr ⟨d, hd, hv, hin, rfl⟩

/-- Replacing the unread parts by the state's own shows that the stage writes none of them. -/
theorem IgnoresUnread.keeps_unread {stage : State → Except Raise State} (h : IgnoresUnread stage) {s t : State}
    (hs : stage s = .ok t) : t.outLatch = s.outLatch ∧ t.outValid = s.outValid ∧ t.fault = s.fault := by
  have hself : Except.ok t = (Except.ok (t.withUnreadOf s) : Except Raise State) :=
    calc Except.ok t = stage (s.withUnreadOf s) := hs.symm
      _ = .ok (t.withUnreadOf s) := by rw [h s s, hs]; rfl
  rw [Except.ok.inj hself]
  exact ⟨rfl, rfl, rfl⟩

/-! ### The step -/

/-- The outcomes of two steps, from `s₁` and from `s₂`, are both next states and have the same effect. -/
def AnswerAlike (s₁ s₂ : State) (o₁ o₂ : Host.Outcome State Fault Refusal) : Prop :=
  ∃ t₁ t₂, o₁ = .next t₁ ∧ o₂ = .next t₂ ∧ SameEffect s₁ t₁ s₂ t₂

theorem enterFault_answerAlike (s u : State) (r : Raise) :
    AnswerAlike s (s.withUnreadOf u) (.next (enterFault s r)) (.next (enterFault (s.withUnreadOf u) r)) :=
  ⟨_, _, rfl, rfl, rfl, rfl, rfl, rfl, rfl, rfl, .inl ⟨rfl, rfl⟩, .inr ⟨rfl, rfl, rfl, rfl⟩⟩

theorem IgnoresUnread.answerAlike {stage : State → Except Raise State} (h : IgnoresUnread stage) (s u : State) :
    AnswerAlike s (s.withUnreadOf u) (commit s (stage s)) (commit (s.withUnreadOf u) (stage (s.withUnreadOf u))) := by
  rw [h s u]
  cases hs : stage s with
  | error r => exact enterFault_answerAlike s u r
  | ok t =>
    obtain ⟨hOut, hOutValid, hFault⟩ := h.keeps_unread hs
    exact ⟨_, _, rfl, rfl, rfl, rfl, rfl, rfl, rfl, rfl, .inr ⟨hFault, rfl⟩, .inr ⟨hOut, hOutValid, rfl, rfl⟩⟩

/-- LOAD outputs the same operand, and marks the output valid, whatever the output was. -/
theorem execLoad_answerAlike (m1 : Mode) (s u : State) :
    AnswerAlike s (s.withUnreadOf u) (execLoad m1 s) (execLoad m1 (s.withUnreadOf u)) := by
  unfold execLoad
  cases h : stageLoad s m1 with
  | error r =>
    rw [(stageLoad_error_iff (s.withUnreadOf u) m1 r).mpr ((stageLoad_error_iff s m1 r).mp h)]
    exact enterFault_answerAlike s u r
  | ok t =>
    obtain ⟨v, hv, rfl⟩ := (stageLoad_ok_iff s t m1).mp h
    rw [(stageLoad_ok_iff (s.withUnreadOf u) _ m1).mpr ⟨v, hv, rfl⟩]
    exact ⟨_, _, rfl, rfl, rfl, rfl, rfl, rfl, rfl, rfl, .inr ⟨rfl, rfl⟩, .inl ⟨rfl, rfl, rfl⟩⟩

theorem exec_answerAlike (i : Instr) (s u : State) :
    AnswerAlike s (s.withUnreadOf u) (exec i s) (exec i (s.withUnreadOf u)) := by
  cases i with
  | add m1 m2 m3 => exact (stageI4_ignoresUnread m1 m2 m3 aluAdd).answerAlike s u
  | mul m1 m2 m3 => exact (stageI4_ignoresUnread m1 m2 m3 aluMul).answerAlike s u
  | lt m1 m2 m3 => exact (stageI4_ignoresUnread m1 m2 m3 fun _ a b => .ok (cmpLt a b)).answerAlike s u
  | eq m1 m2 m3 => exact (stageI4_ignoresUnread m1 m2 m3 fun _ a b => .ok (cmpEq a b)).answerAlike s u
  | store m1 => exact (stageStore_ignoresUnread m1).answerAlike s u
  | load m1 => exact execLoad_answerAlike m1 s u
  | jit m1 m2 => exact (stageI3_ignoresUnread m1 m2 _).answerAlike s u
  | jif m1 m2 => exact (stageI3_ignoresUnread m1 m2 _).answerAlike s u
  | halt =>
    have hhalt : IgnoresUnread fun s => .ok s.halt := fun _ _ => rfl
    exact hhalt.answerAlike s u

theorem step_answerAlike {s : State} (u : State) (hl : s.len ≠ 0) (hf : s.fsm = .running) :
    AnswerAlike s (s.withUnreadOf u) (step s) (step (s.withUnreadOf u)) := by
  have hfetch : fetchDecode (s.withUnreadOf u) = fetchDecode s := rfl
  cases h : fetchDecode s with
  | error r =>
    rw [step_running_error s r hl hf h, step_running_error (s.withUnreadOf u) r hl hf (hfetch.trans h)]
    exact enterFault_answerAlike s u r
  | ok i =>
    rw [step_running s i hl hf h, step_running (s.withUnreadOf u) i hl hf (hfetch.trans h)]
    exact exec_answerAlike i s u

/-- Settles O30: two states that agree on what a step reads are one state with two sets of unread parts. -/
theorem stepIsAFunctionOfItsInputs : Obligations.StepIsAFunctionOfItsInputs := by
  intro s₁ s₂ hl hf₁ hf₂ hcfg hmem hlen hpc hin hvalid
  rw [State.eq_withUnreadOf hcfg hmem hlen hpc (hf₁.trans hf₂.symm) hin hvalid]
  exact step_answerAlike s₂ hl hf₁

end Sys2Proof.Machine
end

section
/-!
PROOFS. A run by its step budget: a longer budget goes on from where a shorter one stopped, so a run has at most one end.
-/

namespace Sys2Proof.Machine

/-- One more step of budget is one step of a RUNNING core, and no change out of RUNNING. -/
theorem runFor_succ_eq_next_iff (n : Nat) (s t : State) :
    runFor (n + 1) s = .next t ↔
      (s.fsm ≠ .running ∧ t = s) ∨ (s.fsm = .running ∧ ∃ u, step s = .next u ∧ runFor n u = .next t) := by
  rw [runFor]
  by_cases hf : s.fsm = .running
  · cases hst : step s <;> simp [hf]
  · simp [hf, eq_comm]

theorem runFor_of_not_running {s : State} (hf : s.fsm ≠ .running) (n : Nat) : runFor n s = .next s := by
  cases n with
  | zero => rfl
  | succ n => exact (runFor_succ_eq_next_iff n s s).mpr (.inl ⟨hf, rfl⟩)

/-- A budget spent in two parts. -/
theorem runFor_add {n : Nat} (k : Nat) {s t : State} (h : runFor n s = .next t) : runFor (n + k) s = runFor k t := by
  induction n generalizing s with
  | zero =>
    cases h
    rw [Nat.zero_add]
  | succ n ih =>
    rcases (runFor_succ_eq_next_iff n s t).mp h with ⟨hf, rfl⟩ | ⟨hf, u, hst, hr⟩
    · rw [runFor_of_not_running hf, runFor_of_not_running hf]
    · rw [← ih hr, Nat.succ_add, runFor, if_pos hf, hst]

/-- A loaded core answers a next state under every budget. -/
theorem runFor_total (n : Nat) {s : State} (hl : s.len ≠ 0) : ∃ t, runFor n s = .next t := by
  induction n generalizing s with
  | zero => exact ⟨s, rfl⟩
  | succ n ih =>
    by_cases hf : s.fsm = .running
    · obtain ⟨u, hst⟩ := step_total s hl
      obtain ⟨t, hr⟩ := ih ((step_keeps_cfg_len hst).2 ▸ hl)
      exact ⟨t, (runFor_succ_eq_next_iff n s t).mpr (.inr ⟨hf, u, hst, hr⟩)⟩
    · exact ⟨s, runFor_of_not_running hf (n + 1)⟩

/-- Past its end a run stays there. -/
theorem runFor_of_le {n m : Nat} {s t : State} (h : runFor n s = .next t) (hf : t.fsm ≠ .running) (hnm : n ≤ m) :
    runFor m s = .next t := by
  obtain ⟨k, rfl⟩ := Nat.exists_eq_add_of_le hnm
  rw [runFor_add k h, runFor_of_not_running hf]

theorem RunEnds.unique {s t u : State} (ht : RunEnds s t) (hu : RunEnds s u) : t = u := by
  obtain ⟨n, hn, hft⟩ := ht
  obtain ⟨m, hm, hfu⟩ := hu
  have hboth : Host.Outcome.next t = .next u :=
    (runFor_of_le hn hft (le_max_left n m)).symm.trans (runFor_of_le hm hfu (le_max_right n m))
  exact Host.Outcome.next.inj hboth

theorem RunEnds.succeeds_or_fails {s t : State} (h : RunEnds s t) : RunSucceeds s t ∨ RunFails s t := by
  have ⟨_, _, hf⟩ := h
  cases ht : t.fsm with
  | running => exact absurd ht hf
  | halted => exact .inl ⟨h, ht⟩
  | faulted => exact .inr ⟨h, ht⟩

theorem hangs_of_not_runEnds {s : State} (hl : s.len ≠ 0) (h : ¬ ∃ t, RunEnds s t) : Hangs s := by
  intro n
  obtain ⟨t, hr⟩ := runFor_total n hl
  exact ⟨t, hr, not_not.mp fun hf => h ⟨t, n, hr, hf⟩⟩

/-- Settles O40: two ends are both the state of the longer budget, and a loaded core's run that has no end answers a RUNNING
state under every budget. -/
theorem runEndsInOneStateOrHangs : Obligations.RunEndsInOneStateOrHangs := by
  refine ⟨fun s t u ht hu => ht.unique hu, fun s t h => ⟨h.succeeds_or_fails, ?_⟩, fun s hl => ?_⟩
  · obtain ⟨n, hn, hf⟩ := h
    exact ⟨n, fun m hnm => runFor_of_le hn hf hnm⟩
  · exact (em _).imp_right (hangs_of_not_runEnds hl)

end Sys2Proof.Machine
end

section
/-!
PROOFS. The rule of an instruction with two sources and a destination follows from its being the committed I4 step of its
result function. ADD and MUL are two instances (41_arith R121, R122).
-/

namespace Sys2Proof.Machine

/-- The first check of 60_exceptions R210 that fails is the fault entered, and a step that passes them all is one write. -/
theorem i4Rule_of_exec_eq_commit {mk : Mode → Mode → Mode → Instr} {result : Config → Int → Int → Except Raise Int}
    (hexec : ∀ s m1 m2 m3, exec (mk m1 m2 m3) s = commit s (stageI4 s m1 m2 m3 (result s.cfg))) : I4Rule mk result := by
  have faults {s m1 m2 m3 r} (h : stageI4 s m1 m2 m3 (result s.cfg) = .error r) :
      exec (mk m1 m2 m3) s = .next (enterFault s r) := by
    rw [hexec, h, commit_error]
  constructor
  case completes =>
    intro s m1 m2 m3 a b d v hwf ha hb hd hv hin
    have hstage := (stageI4_ok_iff s _ m1 m2 m3 (result s.cfg)).mpr ⟨a, b, d, v, ha, hb, hd, hv, hin, rfl⟩
    exact ⟨_, by rw [hexec, hstage, commit_ok], wrote_withCell_withPc hwf hin v 4, rfl⟩
  case operand1Faults =>
    intro s m1 m2 m3 r h1
    exact faults ((stageI4_error_iff ..).mpr (.inl h1))
  case operand2Faults =>
    intro s m1 m2 m3 a r ha h2
    exact faults ((stageI4_error_iff ..).mpr (.inr ⟨a, ha, .inl h2⟩))
  case destParamFaults =>
    intro s m1 m2 m3 a b ha hb hnone
    exact faults ((stageI4_error_iff ..).mpr (.inr ⟨a, ha, .inr ⟨b, hb, .inl ⟨hnone, rfl⟩⟩⟩))
  case resultFaults =>
    intro s m1 m2 m3 a b d r ha hb hd hr
    exact faults ((stageI4_error_iff ..).mpr (.inr ⟨a, ha, .inr ⟨b, hb, .inr ⟨d, hd, .inl hr⟩⟩⟩))
  case writeFaults =>
    intro s m1 m2 m3 a b d v ha hb hd hv hout
    exact faults ((stageI4_error_iff ..).mpr (.inr ⟨a, ha, .inr ⟨b, hb, .inr ⟨d, hd, .inr ⟨v, hv, hout, rfl⟩⟩⟩⟩))

/-- Settles O11: ADD and MUL commit the I4 step whose result is the exact sum or product where it fits, and the decoder checks
the digits of all three parameters. -/
theorem addAndMulFollowTheirRules : Obligations.AddAndMulFollowTheirRules :=
  ⟨i4Rule_of_exec_eq_commit fun _ _ _ _ => rfl, i4Rule_of_exec_eq_commit fun _ _ _ _ => rfl, modesChecked .add, modesChecked .mul⟩

end Sys2Proof.Machine
end

section
/-!
PROOFS. The I/O instructions as a whole (42_io): each commits what its stage answers, and the stage lemmas say for which states
that is a write, an output or a fault.
-/

namespace Sys2Proof.Machine

/-- For every instruction, from the round trip of decode and encode: the decoder reads `L + 1` digits and no others
(30_encoding R75). -/
theorem ignoresUnusedDigits (i : Instr) : IgnoresUnusedDigits i :=
  fun x hx => (decodeIsCanonicalWordPlusIgnoredDigits _ i).mpr ⟨x, hx, rfl⟩

/-! ### STORE -/

theorem exec_store_faults {s : State} {m1 : Mode} {r : Raise} (h : stageStore s m1 = .error r) :
    exec (.store m1) s = .next (enterFault s r) :=
  (commit_eq_next_iff s _ _).mpr (.inr ⟨r, h, rfl⟩)

/-- A write made after the input is consumed is a write of the original state too: IN_VALID is no part of `Wrote`. -/
theorem Wrote.of_consumeInput {s t : State} {d v L : Int} (h : Wrote s.consumeInput t d v L) : Wrote s t d v L :=
  { h with }

/-- Settles O13: the state STORE answers is one write of IN from the state with the input consumed. -/
theorem storeWritesAndConsumesInput : Obligations.StoreWritesAndConsumesInput := by
  intro s m1 d hwf hv hd hin
  have hwrote := wrote_withCell_withPc (s := s.consumeInput) hwf hin s.inLatch 2
  exact ⟨_, exec_store_writes m1 hv hd hin, hwrote.of_consumeInput, rfl⟩

/-- Settles O14: the three raises of STORE in the order of 60_exceptions R210, and fault entry keeps IN_VALID. -/
theorem storeTraps : Obligations.StoreTraps := by
  intro s m1
  refine ⟨fun hnone => ?_, fun d hd hv => ?_, fun d hd hv hout => ⟨?_, hv⟩⟩
  · exact exec_store_faults ((stageStore_error_iff ..).mpr (.inl ⟨hnone, rfl⟩))
  · exact exec_store_faults ((stageStore_error_iff ..).mpr (.inr ⟨d, hd, .inl ⟨hv, rfl⟩⟩))
  · exact exec_store_faults ((stageStore_error_iff ..).mpr (.inr ⟨d, hd, .inr ⟨hv, hout, rfl⟩⟩))

/-! ### LOAD -/

theorem exec_load_outputs {s : State} {m1 : Mode} {v : Int} (hv : IsOperand s 1 m1 v) :
    exec (.load m1) s = .next ((s.withOutput v).withPc (s.pc + 2)) :=
  (commit_eq_next_iff s _ _).mpr (.inl ((stageLoad_ok_iff ..).mpr ⟨v, hv, rfl⟩))

theorem exec_load_faults {s : State} {m1 : Mode} {r : Raise} (hr : OperandFault s 1 m1 r) :
    exec (.load m1) s = .next (enterFault s r) :=
  (commit_eq_next_iff s _ _).mpr (.inr ⟨r, (stageLoad_error_iff ..).mpr hr, rfl⟩)

/-- Settles O15: LOAD commits its one operand to OUT or enters that operand's fault, and the decoder checks digit 2 and
ignores digits 3 and 4 as it does for every instruction. -/
theorem loadOutputsItsOperand : Obligations.LoadOutputsItsOperand :=
  ⟨fun _ _ _ hv => exec_load_outputs hv, fun _ _ _ hr => exec_load_faults hr, modesChecked .load,
    fun m1 => ignoresUnusedDigits (.load m1)⟩

end Sys2Proof.Machine
end

section
/-!
PROOFS. The conditional jumps as a whole (43_branch R140 to R142): each is the committed I3 step of its condition, and the rule
of a jump follows from that.
-/

namespace Sys2Proof.Machine

/-- A step that resolves both operands changes PC alone, by the condition. The I3 step resolves both on either path, so
otherwise the first that does not resolve is the fault entered. -/
theorem jumpRule_of_exec_eq {mk : Mode → Mode → Instr} {taken : Int → Prop} [DecidablePred taken] {test : Int → Bool}
    (hexec : ∀ s m1 m2, exec (mk m1 m2) s = commit s (stageI3 s m1 m2 test))
    (hnext : ∀ {s m1 m2 c target}, IsOperand s 1 m1 c → IsOperand s 2 m2 target →
      exec (mk m1 m2) s = .next (s.withPc (if taken c then target else s.pc + 3))) : JumpRule mk taken := by
  have faults {s m1 m2 r} (h : stageI3 s m1 m2 test = .error r) : exec (mk m1 m2) s = .next (enterFault s r) := by
    rw [hexec, h, commit_error]
  constructor
  case jumps =>
    intro s m1 m2 c target hc ht htaken
    rw [hnext hc ht, if_pos htaken, State.withPc]
  case fallsThrough =>
    intro s m1 m2 c target hc ht htaken
    rw [hnext hc ht, if_neg htaken, State.withPc]
  case conditionFaults =>
    intro s m1 m2 r h1
    exact faults ((stageI3_error_iff ..).mpr (.inl h1))
  case targetFaults =>
    intro s m1 m2 c r hc h2
    exact faults ((stageI3_error_iff ..).mpr (.inr ⟨c, hc, h2⟩))

/-- Settles O16: JIT commits the I3 step that any condition but 0 takes, and the decoder checks digits 2 and 3 and ignores
digit 4. -/
theorem jitJumpsUnlessZero : Obligations.JitJumpsUnlessZero :=
  ⟨jumpRule_of_exec_eq (fun _ _ _ => rfl) exec_jit_eq, modesChecked .jit, fun m1 m2 => ignoresUnusedDigits (.jit m1 m2)⟩

/-- Settles O17: JIF commits the I3 step that the condition 0 alone takes, and the decoder checks digits 2 and 3 and ignores
digit 4. -/
theorem jifJumpsOnZero : Obligations.JifJumpsOnZero :=
  ⟨jumpRule_of_exec_eq (fun _ _ _ => rfl) exec_jif_eq, modesChecked .jif, fun m1 m2 => ignoresUnusedDigits (.jif m1 m2)⟩

end Sys2Proof.Machine
end

section
/-!
PROOFS. The comparisons as a whole (44_compare R150 to R152): the comparator's answer is 1 or 0 by a signed comparison, and LT
and EQ commit the I4 step of that answer, which is never a fault.
-/

namespace Sys2Proof.Machine

/-! ### The comparator -/

theorem truth_decide (p : Prop) [Decidable p] : truth (decide p) = if p then 1 else 0 := by
  by_cases h : p <;> simp [truth, h]

theorem cmpLt_eq_ite (a b : Int) : cmpLt a b = if a < b then 1 else 0 := truth_decide (a < b)

theorem cmpEq_eq_ite (a b : Int) : cmpEq a b = if a = b then 1 else 0 := truth_decide (a = b)

/-- Settles O10: both answers are the truth value of the comparison, and 0 and 1 fit every width R5 allows. -/
theorem comparatorIsSignedAndNeverOverflows : Obligations.ComparatorIsSignedAndNeverOverflows := by
  intro a b W hW
  refine ⟨fun hlt => ?_, fun hle => ?_, fun heq => ?_, fun hne => ?_, truth_fits W _ hW, truth_fits W _ hW⟩
  · rw [cmpLt_eq_ite, if_pos hlt]
  · rw [cmpLt_eq_ite, if_neg (not_lt.mpr hle)]
  · rw [cmpEq_eq_ite, if_pos heq]
  · rw [cmpEq_eq_ite, if_neg hne]

/-! ### LT and EQ -/

theorem lt_i4Rule_cmpLt : I4Rule .lt (fun _ a b => .ok (cmpLt a b)) := i4Rule_of_exec_eq_commit fun _ _ _ _ => rfl

theorem eq_i4Rule_cmpEq : I4Rule .eq (fun _ a b => .ok (cmpEq a b)) := i4Rule_of_exec_eq_commit fun _ _ _ _ => rfl

/-- Settles O12: LT and EQ commit the I4 step whose result is the comparator's answer, and the decoder checks the digits of all
three parameters. -/
theorem ltAndEqFollowTheirRules : Obligations.LtAndEqFollowTheirRules :=
  ⟨by simpa only [cmpLt_eq_ite] using lt_i4Rule_cmpLt, by simpa only [cmpEq_eq_ite] using eq_i4Rule_cmpEq,
    modesChecked .lt, modesChecked .eq⟩

end Sys2Proof.Machine
end

section
/-!
PROOFS. HALT and the state HALTED (45_halt R160, R161): HALT's own effect, what a step does to FSM, and the last step of a run.
-/

namespace Sys2Proof.Machine

/-! ### HALT -/

theorem exec_halt_eq (s : State) : exec .halt s = .next s.halt := rfl

/-- Settles O18: HALT commits `State.halt`, and the decoder ignores its three mode digits as it does every digit beyond `L + 1`. -/
theorem haltOnlyMovesFsm : Obligations.HaltOnlyMovesFsm :=
  ⟨exec_halt_eq, ignoresUnusedDigits .halt⟩

/-! ### FSM after a step -/

theorem Effect.fsm_kept_or_enterFault {s t : State} {i : Instr} (he : Effect s i t) (hi : i ≠ .halt) :
    t.fsm = s.fsm ∨ ∃ r, t = enterFault s r := by
  cases he with
  | raised _ r => exact .inr ⟨r, rfl⟩
  | halted => exact absurd rfl hi
  | wrote | stored | loaded | jumped => exact .inl rfl

theorem step_fsm_halted_iff {s t : State} (hf : s.fsm = .running) (hst : step s = .next t) :
    t.fsm = .halted ↔ Fetches s .halt := by
  constructor
  · intro ht
    obtain ⟨-, ⟨hnf, -⟩ | ⟨-, r, -, rfl⟩ | ⟨-, i, hi, -, he⟩⟩ := step_cases s t hst
    · exact absurd hf hnf
    · simp at ht
    · by_cases hhalt : i = .halt
      · exact hhalt ▸ (fetchDecode_ok_iff s i).mp hi
      · rcases he.fsm_kept_or_enterFault hhalt with hkept | ⟨r, rfl⟩
        · simp [hkept, hf] at ht
        · simp at ht
  · intro hi
    rw [step_of_fetches hf hi, exec_halt_eq] at hst
    cases hst
    rfl

theorem step_eq_of_not_running {s t : State} (hf : s.fsm ≠ .running) (hst : step s = .next t) : t = s := by
  obtain ⟨hl, -⟩ := step_cases s t hst
  rw [step_not_running s hl hf] at hst
  cases hst
  rfl

/-! ### Transactions and runs -/

/-- Out of RUNNING only a load is a transaction that writes FSM. -/
theorem Accepted.fsm_kept_or_load {s t : State} {x : Transaction} (h : Accepted s x t) (hf : s.fsm ≠ .running) :
    t.fsm = s.fsm ∨ ∃ text, x = .load text := by
  cases h with
  | loaded text => exact .inr ⟨text, rfl⟩
  | wrote _ _ hrun => exact absurd hrun hf
  | inputSet | observed => exact .inl rfl
  | stepped _ hst => exact .inl (congrArg State.fsm (step_eq_of_not_running hf hst))
  | ran n _ hr =>
    rw [runFor_of_not_running hf] at hr
    cases hr
    exact .inl rfl

/-- A run that leaves RUNNING does so by the step from its last RUNNING state. -/
theorem runFor_last_step {n : Nat} {s t : State} (hf : s.fsm = .running) (hr : runFor n s = .next t)
    (hnf : t.fsm ≠ .running) : ∃ k u, runFor k s = .next u ∧ u.fsm = .running ∧ step u = .next t := by
  induction n generalizing s with
  | zero =>
    cases hr
    exact absurd hf hnf
  | succ n ih =>
    rcases (runFor_succ_eq_next_iff n s t).mp hr with ⟨hf', -⟩ | ⟨-, v, hst, hrest⟩
    · exact absurd hf hf'
    · by_cases hv : v.fsm = .running
      · obtain ⟨k, u, hk, hu, hlast⟩ := ih hv hrest
        exact ⟨k + 1, u, (runFor_succ_eq_next_iff k s u).mpr (.inr ⟨hf, v, hst, hk⟩), hu, hlast⟩
      · rw [runFor_of_not_running hv] at hrest
        cases hrest
        exact ⟨0, s, rfl, hf, hst⟩

/-- Settles O39: of the effects of a step only HALT's makes a RUNNING core HALTED, so the step by which a successful run left
RUNNING executed it; and a core out of RUNNING has no step to take (decision D22). -/
theorem haltIsTheOnlyWayToHalted : Obligations.HaltIsTheOnlyWayToHalted := by
  refine ⟨fun s t hf hst => step_fsm_halted_iff hf hst, fun i s t hi hexec => ?_, fun s t hf hst => ?_,
    fun s t x reply hf h => ?_, fun s t hf h => ?_⟩
  · exact (exec_effect i s t hexec).fsm_kept_or_enterFault hi
  · exact step_eq_of_not_running (by simp [hf]) hst
  · exact hf ▸ (transact_accepted h).fsm_kept_or_load (by simp [hf])
  · obtain ⟨⟨n, hr, hnf⟩, hhalted⟩ := h
    obtain ⟨k, u, hk, hu, hst⟩ := runFor_last_step hf hr hnf
    exact ⟨k, u, hk, hu, (step_fsm_halted_iff hu hst).mp hhalted, hst⟩

end Sys2Proof.Machine
end

section
/-!
PROOFS. Fault entry and the way out of it (60_exceptions R200 to R208): the record of a fault with a word at PC, and that out of
RUNNING only a load writes FSM or FAULT.
-/

namespace Sys2Proof.Machine

/-! ### Fault entry -/

theorem State.wordAtPc_of_cell_eq_some {s : State} {w : Int} (h : s.cell s.pc = some w) : s.wordAtPc = w := by
  simp [State.wordAtPc, h]

theorem enterFault_fault_of_cell_eq_some {s : State} {w : Int} (h : s.cell s.pc = some w) (r : Raise) :
    (enterFault s r).fault = r.record s.pc w := by
  rw [enterFault_fault, State.wordAtPc_of_cell_eq_some h]

/-- Settles O22: the word read again at PC is the word there, so each record is `Raise.record` of PC and that word. -/
theorem faultEntryRecordsAndKeeps : Obligations.FaultEntryRecordsAndKeeps := by
  intro s w hw
  have hrecord : ∀ r : Raise, (enterFault s r).fault = r.record s.pc w := enterFault_fault_of_cell_eq_some hw
  exact ⟨hrecord .invalidOpcode, fun p d => hrecord (.invalidAddressingMode p d), fun k a _ => hrecord (.outOfBounds k a),
    hrecord .overflow, hrecord .inputUndefined, fun _ => rfl⟩

/-! ### Out of HALTED and FAULTED -/

/-- Out of RUNNING a transaction is a load, which resets FSM and FAULT, or keeps both: HOST_WRITE is refused there, and STEP and
RUN have no step to take (decision D22). -/
theorem Accepted.reset_or_fsm_fault_kept {s t : State} {x : Transaction} (h : Accepted s x t) (hf : s.fsm ≠ .running) :
    ((∃ text, x = .load text) ∧ t.fsm = .running ∧ t.fault = FaultRecord.clear) ∨ (t.fsm = s.fsm ∧ t.fault = s.fault) := by
  cases h with
  | loaded text => exact .inl ⟨⟨text, rfl⟩, rfl, rfl⟩
  | wrote _ _ hrun => exact absurd hrun hf
  | inputSet | observed => exact .inr ⟨rfl, rfl⟩
  | stepped _ hst =>
    cases step_eq_of_not_running hf hst
    exact .inr ⟨rfl, rfl⟩
  | ran n _ hr =>
    rw [runFor_of_not_running hf] at hr
    cases hr
    exact .inr ⟨rfl, rfl⟩

/-- Settles O25: of the effects of an accepted transaction only the load's writes FSM or FAULT out of RUNNING. -/
theorem onlyLoadLeavesTerminalStates : Obligations.OnlyLoadLeavesTerminalStates :=
  fun _ _ _ _ hf h => (transact_accepted h).reset_or_fsm_fault_kept hf

end Sys2Proof.Machine
end

section
/-!
PROOFS. A load (70_reset R240 to R242): the state it leads to, the invariants there, and that every accepted transaction keeps
them. `State.reset` is the load of no program.
-/

namespace Sys2Proof.Machine

/-! ### The state after a load -/

theorem State.reset_eq_loadProgram_nil : State.reset = State.reset.loadProgram [] := rfl

/-- The cells after a load are the program's integers, and no others. -/
theorem State.cell_loadProgram (s : State) (vs : List Int) (k : Nat) : (s.loadProgram vs).cell k = vs[k]? := by
  by_cases hk : k < vs.length
  · have hget : (Memory.ofListFrom 0 vs).get k = vs[k] := by simpa using Memory.get_ofListFrom 0 vs k hk
    rw [List.getElem?_eq_getElem hk]
    exact ((s.loadProgram vs).cell_eq_some_iff k _).mpr ⟨⟨by omega, by simpa using hk⟩, hget⟩
  · rw [List.getElem?_eq_none (not_lt.mp hk)]
    exact ((s.loadProgram vs).cell_eq_none_iff k).mpr fun ⟨_, hlt⟩ => hk (by simpa using hlt)

theorem State.loadProgram_wellFormed {s : State} {vs : List Int} (hcfg : s.cfg.Valid) (hfit : ∀ v ∈ vs, FitsW s.cfg.W v)
    (hcap : vs.length ≤ s.cfg.memCap) : (s.loadProgram vs).WellFormed where
  cfgValid := hcfg
  memCanonical := Memory.ofListFrom_wf 0 vs
  memInRange c hc := by
    obtain ⟨-, hlt, -⟩ := Memory.mem_ofListFrom 0 vs c hc
    simpa using hlt
  memFits c hc := by
    obtain ⟨-, -, hv, -⟩ := Memory.mem_ofListFrom 0 vs c hc
    exact hfit c.2 hv
  lenCapped := hcap
  pcFits := FitsW.zero s.cfg.W
  inFits := FitsW.zero s.cfg.W
  outFits := FitsW.zero s.cfg.W
  faultPcFits := FitsW.zero s.cfg.W
  faultWordFits := FitsW.zero s.cfg.W
  faultAddrFits := FitsW.zero s.cfg.W

theorem State.loadProgram_faultConsistent (s : State) (vs : List Int) : (s.loadProgram vs).FaultConsistent :=
  (State.faultConsistent_iff_of_not_faulted (by simp)).mpr rfl

theorem Config.standard_valid : Config.standard.Valid := by decide

theorem State.reset_wellFormed : State.reset.WellFormed := by
  rw [State.reset_eq_loadProgram_nil]
  exact State.loadProgram_wellFormed Config.standard_valid (by simp) (Nat.zero_le _)

theorem State.reset_faultConsistent : State.reset.FaultConsistent := by
  rw [State.reset_eq_loadProgram_nil]
  exact State.reset.loadProgram_faultConsistent []

/-- Settles O38: the reset state is the load of no program, and the standard parameters are valid. -/
theorem resetMeetsInvariants : Obligations.ResetMeetsInvariants :=
  ⟨State.reset_wellFormed, State.reset_faultConsistent, rfl, rfl, rfl, rfl, rfl, rfl⟩

/-- Settles O42: an accepted load answers `State.loadProgram` of the parsed integers. -/
theorem loadResetsEverything : Obligations.LoadResetsEverything := by
  intro s t text h
  obtain ⟨vs, hp, -, rfl⟩ := (s.loadText_ok_iff t text).mp h
  exact ⟨vs, hp, rfl, fun k _ => s.cell_loadProgram vs k, rfl, rfl, rfl, rfl, rfl, rfl⟩

/-- Settles O44: an admitted program has an integer at place 0, and a load leaves the core RUNNING with PC there. -/
theorem firstStepFetchesCellZero : Obligations.FirstStepFetchesCellZero := by
  intro s t text h
  obtain ⟨vs, -, ⟨hne, -, -⟩, rfl⟩ := (s.loadText_ok_iff t text).mp h
  obtain ⟨w, ws, rfl⟩ := List.exists_cons_of_ne_nil hne
  have hw : (s.loadProgram (w :: ws)).cell 0 = some w := s.cell_loadProgram (w :: ws) 0
  exact ⟨w, hw, fun i hi => step_of_fetches rfl ⟨w, hw, hi⟩, fun e he => step_of_decode_error rfl hw he⟩

/-! ### Every transaction keeps the invariants -/

theorem Accepted.wellFormed {s t : State} {x : Transaction} (ha : Accepted s x t) (h : s.WellFormed) : t.WellFormed := by
  cases ha with
  | loaded _ vs _ hadm =>
    obtain ⟨-, hfit, hcap⟩ := hadm
    exact State.loadProgram_wellFormed h.cfgValid hfit hcap
  | wrote a v _ hin hv => exact h.withCell hin hv
  | inputSet v hv => exact { h with inFits := hv }
  | observed => exact h
  | stepped _ hst => exact step_keeps_wellFormed h hst
  | ran n _ hr => exact runFor_keeps (fun _ _ hu hst => step_keeps_wellFormed hu hst) n h hr

theorem Accepted.faultConsistent {s t : State} {x : Transaction} (ha : Accepted s x t) (h : s.FaultConsistent) :
    t.FaultConsistent := by
  cases ha with
  | loaded _ vs => exact s.loadProgram_faultConsistent vs
  | wrote a v hrun =>
    have hf : s.fsm ≠ .faulted := by simp [hrun]
    have hclear : s.fault = FaultRecord.clear := (State.faultConsistent_iff_of_not_faulted hf).mp h
    exact (State.faultConsistent_iff_of_not_faulted (s := s.withCell a v) hf).mpr hclear
  | inputSet => exact { h with }
  | observed => exact h
  | stepped _ hst => exact step_keeps_faultConsistent h hst
  | ran n _ hr => exact runFor_keeps (fun _ _ hu hst => step_keeps_faultConsistent hu hst) n h hr

/-- Settles O37: each effect of an accepted transaction keeps both invariants. HOST_WRITE can touch the cell a FETCH fault
speaks of only while the core is RUNNING, when the record is clear. -/
theorem transactionsKeepInvariants : Obligations.TransactionsKeepInvariants :=
  fun _ _ _ _ hwf hfc h => ⟨(transact_accepted h).wellFormed hwf, (transact_accepted h).faultConsistent hfc⟩

end Sys2Proof.Machine
end

section
/-!
PROOFS. The transactions (70_reset R247 to R251): only a load is accepted before the first load, what each answers on a loaded
core, and that the output latch holds the operand of the last LOAD.
-/

namespace Sys2Proof.Machine

/-! ### Before the first load -/

/-- Settles O28: `step`, and every transaction but the load, tests LEN first. -/
theorem unloadedCoreIsStuck : Obligations.UnloadedCoreIsStuck := by
  intro s hl
  have hst : step s = .fault .notLoaded := if_pos hl
  refine ⟨hst, fun x hx => ?_⟩
  cases x with
  | load text => exact absurd rfl (hx text)
  | step => rw [transact, hst, afterSteps]
  | hostWrite | hostRead | view | setInput | getOutput | run | status => exact if_pos hl

/-! ### The answers on a loaded core -/

section
variable {s : State} (hl : s.len ≠ 0)
include hl

theorem transact_hostWrite (a v : Int) :
    transact s (.hostWrite a v) = (s.hostWrite a v).map fun t => (.nothing, t) := if_neg hl

theorem transact_hostRead (a : Int) : transact s (.hostRead a) = (s.hostRead a).map fun v => (.value v, s) := if_neg hl

theorem transact_view : transact s .view = .ok (.text s.viewText, s) := if_neg hl

theorem transact_setInput (v : Int) : transact s (.setInput v) = (s.setInput v).map fun t => (.nothing, t) := if_neg hl

theorem transact_getOutput : transact s .getOutput = .ok (.output s.getOutput, s) := if_neg hl

theorem transact_status : transact s .status = .ok (.status s.fsm s.pc s.fault, s) := if_neg hl

end

/-- Settles O50: the four observers answer from the state and give it back. -/
theorem observingTransactionsChangeNothing : Obligations.ObservingTransactionsChangeNothing := by
  intro s hl
  refine ⟨fun a v hv => ?_, fun a hnone => ?_, transact_view hl, transact_status hl, s.getOutput, transact_getOutput hl⟩
  · rw [transact_hostRead hl, State.hostRead, hv, Except.map]
  · rw [transact_hostRead hl, State.hostRead, hnone, Except.map]

/-- Settles O47: an accepted HOST_WRITE is `State.withCell`, and its acceptance requires all three conditions. -/
theorem hostWriteContract : Obligations.HostWriteContract := by
  intro s a v hl
  constructor
  · intro hwf hrun hin hfit
    have hwrite : s.hostWrite a v = .ok (s.withCell a v) := (s.hostWrite_ok_iff _ a v).mpr ⟨hrun, hin, hfit, rfl⟩
    exact ⟨s.withCell a v, by rw [transact_hostWrite hl, hwrite, Except.map], s.cell_withCell_same a v hwf hin,
      fun b hb => s.cell_withCell_other a b v hin.1 hb, rfl⟩
  · intro hbad
    cases h : transact s (.hostWrite a v) with
    | error e => exact ⟨e, rfl⟩
    | ok answer =>
      obtain ⟨reply, t⟩ := answer
      cases transact_accepted h with
      | wrote _ _ hrun hin hfit => rcases hbad with hbad | hbad | hbad <;> contradiction
      | observed _ hobs => exact hobs.elim

/-- Settles O48: SET_INPUT touches the two input latches alone, so the destination of the STORE is read from it as before. -/
theorem setInputIsConsumedByTheNextStore : Obligations.SetInputIsConsumedByTheNextStore := by
  intro s v hl hfit
  constructor
  · rw [transact_setInput hl, (s.setInput_ok_iff _ v).mpr ⟨hfit, rfl⟩, Except.map]
  · intro m1 d hwf hd hin
    obtain ⟨t, hexec, hwrote, hconsumed⟩ :=
      storeWritesAndConsumesInput { s with inLatch := v, inValid := true } m1 d hwf rfl hd hin
    exact ⟨t, hexec, hwrote.written, hconsumed⟩

/-! ### The output latch -/

/-- An instruction keeps the output, or is a LOAD that wrote its operand there (42_io R131). -/
theorem Effect.output_cases {s t : State} {i : Instr} (he : Effect s i t) :
    (t.outLatch = s.outLatch ∧ t.outValid = s.outValid) ∨
      ∃ m1 v, i = .load m1 ∧ IsOperand s 1 m1 v ∧ t.outLatch = v ∧ t.outValid = true := by
  cases he with
  | loaded m1 v hv => exact .inr ⟨m1, v, rfl, hv, rfl, rfl⟩
  | raised | wrote | stored | jumped | halted => exact .inl ⟨rfl, rfl⟩

theorem step_output_cases {s t : State} (hst : step s = .next t) :
    (t.outLatch = s.outLatch ∧ t.outValid = s.outValid) ∨
      (s.fsm = .running ∧ ∃ m1 v, Fetches s (.load m1) ∧ IsOperand s 1 m1 v ∧ t.outLatch = v ∧ t.outValid = true) := by
  obtain ⟨-, ⟨-, rfl⟩ | ⟨-, r, -, rfl⟩ | ⟨hrun, i, hi, -, he⟩⟩ := step_cases s t hst
  · exact .inl ⟨rfl, rfl⟩
  · exact .inl ⟨rfl, rfl⟩
  · refine he.output_cases.imp_right ?_
    rintro ⟨m1, v, rfl, hout⟩
    exact ⟨hrun, m1, v, (fetchDecode_ok_iff s _).mp hi, hout⟩

/-- Settles O49: of the effects of a step only LOAD's writes the output latch, and of those of a transaction only a load of a
program and the steps themselves do. -/
theorem getOutputAnswersTheLastLoad : Obligations.GetOutputAnswersTheLastLoad := by
  refine ⟨fun s hl => ?_, fun s t m1 v hl hv hexec => ?_, fun s t hst => step_output_cases hst,
    fun s t x reply h => ?_⟩
  · constructor <;> intro hv <;> simp [transact_getOutput hl, State.getOutput, hv]
  · rw [exec_load_outputs hv] at hexec
    cases hexec
    exact transact_getOutput hl
  · cases transact_accepted h with
    | loaded => rfl
    | wrote | inputSet => exact ⟨rfl, rfl⟩
    | stepped _ hst => exact hst
    | ran _ _ hr => exact hr
    | observed _ hobs =>
      cases x with
      | hostRead | view | getOutput | status => exact ⟨rfl, rfl⟩
      | load | hostWrite | setInput | step | run => exact hobs.elim

end Sys2Proof.Machine
end

section
/-!
PROOFS. The parser of program text and its grammar (70_reset R244), layer by layer: an integer, the list between commas, the
trailing comma, the white space around. A text is split one way only because the characters of a list are digits, `-` and `,`,
and its last is a digit.
-/

namespace Sys2Proof.Machine

/-! ### An integer -/

theorem isWs_eq_true_iff (c : Char) : isWs c = true ↔ c = ' ' ∨ c = '\t' ∨ c = '\r' ∨ c = '\n' := by
  simp [isWs, or_assoc]

theorem parseDigits_eq_some_iff (ds : List Char) (n : Nat) : parseDigits ds = some n ↔ IsDigits ds n := by
  simp [parseDigits, IsDigits, and_assoc, eq_comm (a := n)]

theorem IsDigits.head_ne_minus {c : Char} {ds : List Char} {n : Nat} (h : IsDigits (c :: ds) n) : c ≠ '-' := by
  obtain ⟨-, hdigit, -⟩ := h
  rintro rfl
  exact absurd (hdigit '-' (by simp)) (by decide)

theorem parseInteger_eq_some_iff (f : List Char) (v : Int) : parseInteger f = some v ↔ IsInteger f v := by
  cases f with
  | nil => simp [parseInteger, IsInteger, IsDigits]
  | cons c ds =>
    by_cases hc : c = '-'
    · subst hc
      have hnot : ∀ n, ¬ IsDigits ('-' :: ds) n := fun n h => h.head_ne_minus rfl
      simp [parseInteger, IsInteger, parseDigits_eq_some_iff, hnot, eq_comm (a := v)]
    · simp [parseInteger, IsInteger, parseDigits_eq_some_iff, hc, eq_comm (a := v)]

/-! ### The characters of a list -/

/-- The characters of an integer. -/
abbrev IsIntegerChar (c : Char) : Prop := c.isDigit = true ∨ c = '-'

theorem IsIntegerChar.not_ws {c : Char} (h : IsIntegerChar c) : isWs c ≠ true := by
  rw [Ne, isWs_eq_true_iff]
  rintro (rfl | rfl | rfl | rfl) <;> exact absurd h (by decide)

theorem IsInteger.isIntegerChar {t : List Char} {v : Int} (h : IsInteger t v) : ∀ c ∈ t, IsIntegerChar c := by
  intro c hc
  rcases h with ⟨n, ⟨-, hdigit, -⟩, -⟩ | ⟨ds, n, rfl, ⟨-, hdigit, -⟩, -⟩
  · exact .inl (hdigit c hc)
  · rcases List.mem_cons.mp hc with rfl | hc
    · exact .inr rfl
    · exact .inl (hdigit c hc)

theorem IsInteger.comma_not_mem {t : List Char} {v : Int} (h : IsInteger t v) : ',' ∉ t :=
  fun hc => absurd (h.isIntegerChar ',' hc) (by decide)

theorem IsInteger.ne_nil {t : List Char} {v : Int} (h : IsInteger t v) : t ≠ [] := by
  rcases h with ⟨n, ⟨hne, -⟩, -⟩ | ⟨ds, n, rfl, -⟩
  · exact hne
  · exact List.cons_ne_nil '-' ds

theorem IsList.ne_nil {t : List Char} {vs : List Int} (h : IsList t vs) : t ≠ [] := by
  cases h with
  | one t v hv => exact hv.ne_nil
  | more t v rest vs => simp

theorem IsList.not_ws {t : List Char} {vs : List Int} (h : IsList t vs) : ∀ c ∈ t, isWs c ≠ true := by
  induction h with
  | one t v hv => exact fun c hc => (hv.isIntegerChar c hc).not_ws
  | more t v rest vs hv _ ih =>
    intro c hc
    rcases List.mem_append.mp hc with hc | hc
    · exact (hv.isIntegerChar c hc).not_ws
    · rcases List.mem_cons.mp hc with rfl | hc
      · decide
      · exact ih c hc

theorem IsList.getLast?_ne_comma {t : List Char} {vs : List Int} (h : IsList t vs) : t.getLast? ≠ some ',' := by
  induction h with
  | one t v hv => exact fun hlast => hv.comma_not_mem (List.mem_of_getLast? hlast)
  | more t v rest vs _ hrest ih =>
    obtain ⟨c, cs, rfl⟩ := List.exists_cons_of_ne_nil hrest.ne_nil
    simpa using ih

/-! ### The list between commas -/

theorem splitCommas_of_comma_not_mem {f : List Char} (hf : ',' ∉ f) : splitCommas f = [f] := by
  induction f with
  | nil => rfl
  | cons c f ih =>
    obtain ⟨hc, hf⟩ := not_or.mp (mt List.mem_cons.mpr hf)
    simp [splitCommas, Ne.symm hc, ih hf]

theorem splitCommas_append_comma {f : List Char} (hf : ',' ∉ f) (rest : List Char) :
    splitCommas (f ++ ',' :: rest) = f :: splitCommas rest := by
  induction f with
  | nil => simp [splitCommas]
  | cons c f ih =>
    obtain ⟨hc, hf⟩ := not_or.mp (mt List.mem_cons.mpr hf)
    simp [splitCommas, Ne.symm hc, ih hf]

theorem joinCommas_cons (f : List Char) {fs : List (List Char)} (hfs : fs ≠ []) :
    joinCommas (f :: fs) = f ++ ',' :: joinCommas fs := by
  cases fs with
  | nil => exact absurd rfl hfs
  | cons => rfl

theorem joinCommas_cons_char (c : Char) (f : List Char) (fs : List (List Char)) :
    joinCommas ((c :: f) :: fs) = c :: joinCommas (f :: fs) := by
  cases fs <;> rfl

theorem joinCommas_splitCommas (t : List Char) : joinCommas (splitCommas t) = t := by
  induction t with
  | nil => rfl
  | cons c cs ih =>
    rw [splitCommas]
    split
    next hc => rw [joinCommas_cons [] (splitCommas_ne_nil cs), ih, hc, List.nil_append]
    next hc =>
      split
      next hnil => exact absurd hnil (splitCommas_ne_nil cs)
      next f fs hsplit => rw [joinCommas_cons_char, ← hsplit, ih]

theorem parseAll_cons_eq_some_iff (f : List Char) (fs : List (List Char)) (vs : List Int) :
    parseAll (f :: fs) = some vs ↔ ∃ v ws, IsInteger f v ∧ parseAll fs = some ws ∧ v :: ws = vs := by
  simp only [← parseInteger_eq_some_iff]
  rw [parseAll]
  cases parseInteger f <;> simp

theorem isList_joinCommas_of_parseAll {fs : List (List Char)} {vs : List Int} (hfs : fs ≠ [])
    (h : parseAll fs = some vs) : IsList (joinCommas fs) vs := by
  induction fs generalizing vs with
  | nil => exact absurd rfl hfs
  | cons f fs ih =>
    obtain ⟨v, ws, hv, hws, rfl⟩ := (parseAll_cons_eq_some_iff f fs vs).mp h
    by_cases hnil : fs = []
    · subst hnil
      cases hws
      exact .one f v hv
    · rw [joinCommas_cons f hnil]
      exact .more f v _ ws hv (ih hnil hws)

/-- Commas delimit the integers of a list and stand nowhere else in it. -/
theorem parseAll_splitCommas_eq_some_iff (t : List Char) (vs : List Int) :
    parseAll (splitCommas t) = some vs ↔ IsList t vs := by
  constructor
  · intro h
    rw [← joinCommas_splitCommas t]
    exact isList_joinCommas_of_parseAll (splitCommas_ne_nil t) h
  · intro h
    induction h with
    | one f v hv =>
      rw [splitCommas_of_comma_not_mem hv.comma_not_mem]
      exact (parseAll_cons_eq_some_iff f [] _).mpr ⟨v, [], hv, rfl, rfl⟩
    | more f v rest vs hv _ ih =>
      rw [splitCommas_append_comma hv.comma_not_mem rest]
      exact (parseAll_cons_eq_some_iff f _ _).mpr ⟨v, vs, hv, ih, rfl⟩

/-! ### The trailing comma and the white space around -/

theorem exists_eq_dropTrailingComma_append (t : List Char) :
    ∃ comma, t = dropTrailingComma t ++ comma ∧ (comma = [] ∨ comma = [',']) := by
  unfold dropTrailingComma
  split
  next hlast => exact ⟨[','], (List.dropLast_append_getLast? ',' hlast).symm, .inr rfl⟩
  next => exact ⟨[], (List.append_nil t).symm, .inl rfl⟩

theorem dropTrailingComma_append {body comma : List Char} (hbody : body.getLast? ≠ some ',')
    (hcomma : comma = [] ∨ comma = [',']) : dropTrailingComma (body ++ comma) = body := by
  rcases hcomma with rfl | rfl
  · rw [List.append_nil, dropTrailingComma, if_neg hbody]
  · simp [dropTrailingComma]

theorem exists_eq_append_stripWs_append (t : List Char) :
    ∃ before after, t = before ++ stripWs t ++ after ∧ (∀ c ∈ before, isWs c = true) ∧ (∀ c ∈ after, isWs c = true) := by
  have hback (u : List Char) : (u.reverse.dropWhile isWs).reverse ++ (u.reverse.takeWhile isWs).reverse = u := by
    rw [← List.reverse_append, List.takeWhile_append_dropWhile, List.reverse_reverse]
  refine ⟨t.takeWhile isWs, ((t.dropWhile isWs).reverse.takeWhile isWs).reverse, ?_, fun c hc => List.mem_takeWhile_imp hc,
    fun c hc => List.mem_takeWhile_imp (List.mem_reverse.mp hc)⟩
  rw [List.append_assoc, stripWs, hback, List.takeWhile_append_dropWhile]

theorem dropWhile_isWs_append {ws rest : List Char} (hws : ∀ c ∈ ws, isWs c = true)
    (hrest : ∀ c ∈ rest.head?, isWs c ≠ true) : (ws ++ rest).dropWhile isWs = rest := by
  rw [List.dropWhile_append_of_pos hws]
  cases rest with
  | nil => rfl
  | cons c rest => exact List.dropWhile_cons_of_neg (hrest c rfl)

theorem stripWs_append {before core after : List Char} (hne : core ≠ []) (hcore : ∀ c ∈ core, isWs c ≠ true)
    (hbefore : ∀ c ∈ before, isWs c = true) (hafter : ∀ c ∈ after, isWs c = true) :
    stripWs (before ++ core ++ after) = core := by
  have hfront : (before ++ core ++ after).dropWhile isWs = core ++ after := by
    rw [List.append_assoc]
    refine dropWhile_isWs_append hbefore fun c hc => hcore c ?_
    rw [List.head?_append_of_ne_nil core hne] at hc
    exact List.mem_of_head? hc
  have hback : (after.reverse ++ core.reverse).dropWhile isWs = core.reverse := by
    refine dropWhile_isWs_append (fun c hc => hafter c (List.mem_reverse.mp hc)) fun c hc => hcore c ?_
    exact List.mem_reverse.mp (List.mem_of_head? hc)
  rw [stripWs, hfront, List.reverse_append, hback, List.reverse_reverse]

/-! ### The text -/

theorem inGrammar_of_parseProgram {text : List Char} {vs : List Int} (h : parseProgram text = some vs) :
    InGrammar text vs := by
  obtain ⟨before, after, htext, hbefore, hafter⟩ := exists_eq_append_stripWs_append text
  obtain ⟨comma, hcore, hcomma⟩ := exists_eq_dropTrailingComma_append (stripWs text)
  refine ⟨before, dropTrailingComma (stripWs text), comma, after, ?_, hbefore,
    (parseAll_splitCommas_eq_some_iff _ vs).mp h, hcomma, hafter⟩
  rw [List.append_assoc before, ← hcore]
  exact htext

theorem InGrammar.parseProgram_eq {text : List Char} {vs : List Int} (h : InGrammar text vs) :
    parseProgram text = some vs := by
  obtain ⟨before, body, comma, after, rfl, hbefore, hbody, hcomma, hafter⟩ := h
  have hcore : ∀ c ∈ body ++ comma, isWs c ≠ true := by
    intro c hc
    rcases List.mem_append.mp hc with hc | hc
    · exact hbody.not_ws c hc
    · rcases hcomma with rfl | rfl
      · simp at hc
      · rw [List.mem_singleton.mp hc]
        decide
  have hstrip : stripWs (before ++ body ++ comma ++ after) = body ++ comma := by
    rw [List.append_assoc before]
    exact stripWs_append (by simp [hbody.ne_nil]) hcore hbefore hafter
  rw [parseProgram, hstrip, dropTrailingComma_append hbody.getLast?_ne_comma hcomma]
  exact (parseAll_splitCommas_eq_some_iff body vs).mpr hbody

/-- Settles O45: the parser finds a splitting of the grammar, and a text the grammar splits is taken apart by the parser at the
same places. -/
theorem parserAcceptsExactlyTheGrammar : Obligations.ParserAcceptsExactlyTheGrammar :=
  fun _ _ => ⟨inGrammar_of_parseProgram, InGrammar.parseProgram_eq⟩

/-- Settles O43: a load is accepted exactly where the parser answers an admitted program. -/
theorem loadIsRefusedExactly : Obligations.LoadIsRefusedExactly := by
  intro s text
  constructor
  · rintro ⟨t, h⟩
    obtain ⟨vs, hp, hadm, -⟩ := (s.loadText_ok_iff t text).mp h
    exact ⟨vs, inGrammar_of_parseProgram hp, hadm⟩
  · rintro ⟨vs, hg, hadm⟩
    exact ⟨s.loadProgram vs, (s.loadText_ok_iff _ text).mpr ⟨vs, hg.parseProgram_eq, hadm, rfl⟩⟩

end Sys2Proof.Machine
end

section
/-!
PROOFS. The serialised memory (70_reset R245): canonical decimal spells its number, so the text VIEW gives is a list of the
grammar, and loading it gives the cells back.
-/

namespace Sys2Proof.Machine

/-! ### Canonical decimal -/

/-- The character that `digitsOf` writes for a digit stands for it. -/
theorem digitChar_spells (d : Nat) (hd : d < 10) :
    (Char.ofNat (48 + d)).isDigit = true ∧ (Char.ofNat (48 + d)).toNat - 48 = d := by
  have hall : ∀ d < 10, (Char.ofNat (48 + d)).isDigit = true ∧ (Char.ofNat (48 + d)).toNat - 48 = d := by decide
  exact hall d hd

theorem isDigits_singleton {d : Nat} (hd : d < 10) : IsDigits [Char.ofNat (48 + d)] d := by
  obtain ⟨hdigit, hval⟩ := digitChar_spells d hd
  exact ⟨by simp, by simpa using hdigit, by simp [decimalValue, hval]⟩

theorem IsDigits.concat {ds : List Char} {n d : Nat} (h : IsDigits ds n) (hd : d < 10) :
    IsDigits (ds ++ [Char.ofNat (48 + d)]) (10 * n + d) := by
  obtain ⟨-, hdigits, rfl⟩ := h
  obtain ⟨hdigit, hval⟩ := digitChar_spells d hd
  refine ⟨by simp, fun c hc => ?_, by simp [decimalValue, hval]⟩
  rcases List.mem_append.mp hc with hc | hc
  · exact hdigits c hc
  · rw [List.mem_singleton.mp hc]
    exact hdigit

theorem isDigits_digitsOf {fuel n : Nat} (hn : n < fuel) : IsDigits (digitsOf fuel n) n := by
  induction fuel generalizing n with
  | zero => exact absurd hn (Nat.not_lt_zero n)
  | succ fuel ih =>
    rw [digitsOf]
    split
    next hlt => exact isDigits_singleton hlt
    next hge =>
      have hfront : IsDigits (digitsOf fuel (n / 10)) (n / 10) := ih (by omega)
      have hall := hfront.concat (Nat.mod_lt n (by decide : 0 < 10))
      rwa [Nat.div_add_mod] at hall

theorem isDigits_showNat (n : Nat) : IsDigits (showNat n) n := isDigits_digitsOf (Nat.lt_succ_self n)

theorem isInteger_showInteger (v : Int) : IsInteger (showInteger v) v := by
  unfold showInteger
  split
  next hneg => exact .inr ⟨_, _, rfl, isDigits_showNat v.natAbs, by omega⟩
  next hnonneg => exact .inl ⟨_, isDigits_showNat v.natAbs, by omega⟩

theorem parseAll_map_showInteger (vs : List Int) : parseAll (vs.map showInteger) = some vs := by
  induction vs with
  | nil => rfl
  | cons v vs ih => exact (parseAll_cons_eq_some_iff _ _ _).mpr ⟨v, vs, isInteger_showInteger v, ih, rfl⟩

theorem IsList.inGrammar {t : List Char} {vs : List Int} (h : IsList t vs) : InGrammar t vs :=
  ⟨[], t, [], [], by simp, by simp, h, .inl rfl, by simp⟩

/-! ### The cells -/

theorem State.length_cells (s : State) : s.cells.length = s.len := by simp [State.cells]

theorem State.cells_ne_nil {s : State} (hl : s.len ≠ 0) : s.cells ≠ [] := by
  rwa [← List.length_pos_iff, s.length_cells, Nat.pos_iff_ne_zero]

theorem State.viewText_inGrammar {s : State} (hl : s.len ≠ 0) : InGrammar s.viewText s.cells :=
  (isList_joinCommas_of_parseAll (by simpa using s.cells_ne_nil hl) (parseAll_map_showInteger s.cells)).inGrammar

theorem State.WellFormed.admits_cells {s : State} (h : s.WellFormed) (hl : s.len ≠ 0) : s.cfg.Admits s.cells := by
  refine ⟨s.cells_ne_nil hl, fun v hv => ?_, s.length_cells.trans_le h.lenCapped⟩
  obtain ⟨a, ha, rfl⟩ := List.mem_map.mp hv
  have ha : a < s.len := List.mem_range.mp ha
  exact h.cell_fits ((s.cell_eq_some_iff a _).mpr ⟨⟨by omega, by omega⟩, rfl⟩)

/-- Canonical memory is determined by what its cells hold. -/
theorem State.WellFormed.ofListFrom_cells {s : State} (h : s.WellFormed) : Memory.ofListFrom 0 s.cells = s.mem := by
  refine Memory.ext_of_wf _ _ (Memory.ofListFrom_wf 0 s.cells) h.memCanonical fun a => ?_
  by_cases ha : a < s.len
  · have hget := Memory.get_ofListFrom 0 s.cells a (s.length_cells ▸ ha)
    simpa [State.cells] using hget
  · have hloaded : ∀ c ∈ Memory.ofListFrom 0 s.cells, c.1 ≠ a := fun c hc => by
      have hlt := (Memory.mem_ofListFrom 0 s.cells c hc).2.1
      rw [s.length_cells] at hlt
      omega
    have hheld : ∀ c ∈ s.mem, c.1 ≠ a := fun c hc => by
      have hlt := h.memInRange c hc
      omega
    rw [Memory.get_of_forall_ne _ a hloaded, Memory.get_of_forall_ne _ a hheld]

/-- Settles O46: the text VIEW gives spells the cells, which are an admitted program, and canonical memory is its cells. -/
theorem loadOfViewGivesTheMemoryBack : Obligations.LoadOfViewGivesTheMemoryBack := by
  intro s u h hl hcfg
  refine ⟨u.loadProgram s.cells, (u.loadText_ok_iff _ _).mpr ⟨s.cells, ?_, ?_, rfl⟩, h.ofListFrom_cells, s.length_cells⟩
  · exact (State.viewText_inGrammar hl).parseProgram_eq
  · exact hcfg ▸ h.admits_cells hl

end Sys2Proof.Machine
end
